-- ==== Sys2Proof/Word.lean ====
section
/-! DEFINITION. The word types of the hardware (00_scope.md R5 and section 6.1). -/

namespace Sys2Proof

/-- A double word: a general register, `eip`, an immediate. 32 bits (R5). -/
abbrev Word := BitVec 32

/-- The addressable unit of memory. 8 bits (R5). -/
abbrev Byte := BitVec 8

end Sys2Proof
end

