-- ==== Sys2Proof/Config.lean ====
section
/-! DEFINITION. What is fixed for the machine: the bound on the buffer, and the construction inputs that `State.reset` uses. -/

namespace Sys2Proof.Config

/-- The largest `MEM_SIZE` (R6: `0 <= MEM_SIZE <= 2^32`, the spec's decision D2, log 4). -/
def maxMemSize : Nat := 4294967296

/-- The value of `eip` that ends a run when a completed instruction leaves it there (R19, decision D7). -/
def haltSentinel : Word := 0#32

/-- `INIT_EIP` of the fixed `State.reset`. DESIGN CHOICE (log 1, unsafe): the spec leaves this input open (R6, D14);
0 is the value of its worked examples. -/
def initEip : Word := 0#32

/-- `INIT_SP` of the fixed `State.reset`. DESIGN CHOICE (log 1, unsafe): the spec leaves this input open (R6, D14);
0 is the value of its worked examples (90_conflicts.md C3). -/
def initSp : Word := 0#32

/-- `IMAGE` of the fixed `State.reset`. DESIGN CHOICE (log 1, unsafe): no image, because the image is what the host
loads (R4, R136); a program comes in through `State.construct` or `State.withFetchWord` (log 2). -/
def image : List Byte := []

end Sys2Proof.Config
end

