-- ==== Sys2Proof/Syntax.lean ====
section
/-! DEFINITION. The instructions, one constructor per row of spec/opcode_table.json, and the result of decoding an
opcode byte. -/

namespace Sys2Proof

/-- The nine instructions (30_encoding.md R52). An immediate is raw 32 bits (R54); a displacement is a signed number
(R55), which WellFormed bounds to `-128 .. 127`. -/
inductive Instr where
  /-- `MOV r0, imm32`, opcode 0xB8 (R86). -/
  | movR0 (imm32 : Word)
  /-- `MOV r1, imm32`, opcode 0xB9 (R87). -/
  | movR1 (imm32 : Word)
  /-- `MOV r2, imm32`, opcode 0xBA (R88). -/
  | movR2 (imm32 : Word)
  /-- `MOV r3, imm32`, opcode 0xBB (R89). -/
  | movR3 (imm32 : Word)
  /-- `MOV r4, imm32`, opcode 0xBC (R90). -/
  | movR4 (imm32 : Word)
  /-- `MOV r5, imm32`, opcode 0xBD (R91). -/
  | movR5 (imm32 : Word)
  /-- `MOV r6, imm32`, opcode 0xBE (R92). -/
  | movR6 (imm32 : Word)
  /-- `MOV r7, imm32`, opcode 0xBF (R93). -/
  | movR7 (imm32 : Word)
  /-- `JMP rel8`, opcode 0xEB (R100). -/
  | jmpRel8 (rel8 : Int)
deriving DecidableEq, Repr

/-- What the dispatcher makes of an opcode byte (R59). -/
inductive Handler where
  /-- The load-immediate handler, with the register index `opcode - 0xB8`. -/
  | loadImm (i : Nat)
  /-- The relative-short-jump handler. -/
  | jmpShort
  /-- No handler: one of the 247 undefined opcodes (R57). -/
  | undefined (op : Byte)
deriving DecidableEq, Repr

end Sys2Proof
end

