-- ==== Sys2Proof/WellFormed.lean ====
section
/-! DEFINITION. Which instruction terms stand for an instruction the encoding can express. -/

namespace Sys2Proof

/-- A displacement is a signed byte, `-128 .. 127` (30_encoding.md R55, R62). -/
def displacementOk (d : Int) : Bool := decide (-128 ≤ d) && decide (d ≤ 127)

/-- Every 32-bit immediate is legal (R54), so only the jump has something to check. -/
def Instr.wf : Instr → Bool
  | .movR0 _ => true
  | .movR1 _ => true
  | .movR2 _ => true
  | .movR3 _ => true
  | .movR4 _ => true
  | .movR5 _ => true
  | .movR6 _ => true
  | .movR7 _ => true
  | .jmpRel8 d => displacementOk d

end Sys2Proof
end

