-- ==== Sys2Proof/Decode.lean ====
section
/-! DEFINITION. The instruction decoder, total on any bytes, and the encoder. The stages of decoding are written once
(`decodeWith`) over the three read functions of the operand decoder (00_scope.md section 6.2), so that decoding a list of
bytes and fetching from the machine's memory are the same function. -/

namespace Sys2Proof

/-! ### Assembling bytes -/

/-- The unsigned value of bytes at ascending addresses, the first least significant (20_memory.md R35, R36). -/
def littleEndian : List Byte → Nat
  | [] => 0
  | b :: bs => b.toNat + 256 * littleEndian bs

/-- `n` bytes at the ascending addresses `a, a+1, …`, or the error of the first address that has none (R36). -/
def readBytes {ε : Type} (src : Nat → Except ε Byte) (a : Nat) : Nat → Except ε (List Byte)
  | 0 => .ok []
  | n + 1 =>
    match src a with
    | .error e => .error e
    | .ok b =>
      match readBytes src (a + 1) n with
      | .error e => .error e
      | .ok bs => .ok (b :: bs)

/-- `n` bytes assembled little-endian into a value of width `8n`; all or nothing (R36, R40). -/
def readUnsigned {ε : Type} (src : Nat → Except ε Byte) (a n : Nat) : Except ε (BitVec (8 * n)) :=
  match readBytes src a n with
  | .error e => .error e
  | .ok bs => .ok (BitVec.ofNat (8 * n) (littleEndian bs))

/-- A byte reinterpreted as a two's-complement signed value, `sext_8` (00_scope.md section 6.2, R39). -/
def signExtendByte (b : Byte) : Int := if b.toNat < 128 then (b.toNat : Int) else (b.toNat : Int) - 256

/-! ### The dispatcher -/

/-- `Decode(op)` of 30_encoding.md R59, from the opcode byte alone (R51). -/
def decodeOpcode (op : Byte) : Handler :=
  if op &&& 0xF8#8 = 0xB8#8 then .loadImm (op.toNat - 0xB8)
  else if op = 0xEB#8 then .jmpShort
  else .undefined op

/-- `MOV r<i>, imm32` as an instruction (R85). -/
def Instr.mov (i : Fin 8) (v : Word) : Instr :=
  match i with
  | 0 => .movR0 v
  | 1 => .movR1 v
  | 2 => .movR2 v
  | 3 => .movR3 v
  | 4 => .movR4 v
  | 5 => .movR5 v
  | 6 => .movR6 v
  | 7 => .movR7 v

/-- Stages (a) and (b) of a step and part (1) of the handler contract, in the order of R78: fetch the opcode byte, choose
the handler, guard the register index (R94, before the operand read by decision D6, log 8), read the operand. -/
def decodeWith {ε : Type} (readByte : Nat → Except ε Byte) (readSignedByte : Nat → Except ε Int)
    (readDoubleWord : Nat → Except ε Word) (noHandler : Byte → ε) (badIndex : Nat → ε) : Except ε Instr :=
  match readByte 0 with
  | .error e => .error e
  | .ok op =>
    match decodeOpcode op with
    | .loadImm i =>
      if h : i < 8 then
        match readDoubleWord 1 with
        | .error e => .error e
        | .ok v => .ok (Instr.mov ⟨i, h⟩ v)
      else .error (badIndex i)
    | .jmpShort =>
      match readSignedByte 1 with
      | .error e => .error e
      | .ok d => .ok (.jmpRel8 d)
    | .undefined op => .error (noHandler op)

/-! ### Decoding a list of bytes -/

/-- Why a list of bytes does not begin with an instruction. -/
inductive DecodeFailure where
  /-- The first byte is an undefined opcode (R57). -/
  | undefinedOpcode (op : Byte)
  /-- The register index is outside `0 .. 7` (R94); unreachable. -/
  | registerIndex (i : Nat)
  /-- The list ends before the byte at this offset, which the instruction needs. -/
  | truncated (offset : Nat)
deriving DecidableEq, Repr

/-- The byte at an offset of a list. -/
def listByte (bs : List Byte) (off : Nat) : Except DecodeFailure Byte :=
  match bs[off]? with
  | some b => .ok b
  | none => .error (.truncated off)

/-- `ReadSignedByte` over any byte source: one byte, sign-extended (R39). -/
def readSigned {ε : Type} (src : Nat → Except ε Byte) (a : Nat) : Except ε Int :=
  match readUnsigned src a 1 with
  | .error e => .error e
  | .ok b => .ok (signExtendByte b)

/-- How many bytes an instruction occupies (30_encoding.md R50, R51). -/
def Instr.length : Instr → Nat
  | .movR0 _ => 5
  | .movR1 _ => 5
  | .movR2 _ => 5
  | .movR3 _ => 5
  | .movR4 _ => 5
  | .movR5 _ => 5
  | .movR6 _ => 5
  | .movR7 _ => 5
  | .jmpRel8 _ => 2

/-- The instruction a list of bytes begins with, and the bytes after it. -/
def decode (bs : List Byte) : Except DecodeFailure (Instr × List Byte) :=
  match decodeWith (fun off => readUnsigned (listByte bs) off 1) (readSigned (listByte bs))
      (fun off => readUnsigned (listByte bs) off 4) .undefinedOpcode .registerIndex with
  | .error e => .error e
  | .ok i => .ok (i, bs.drop i.length)

/-! ### Encoding -/

/-- The four operand bytes of format I5: `imm32[7:0]`, `imm32[15:8]`, `imm32[23:16]`, `imm32[31:24]` (R50, R54). -/
def immediateBytes (v : Word) : List Byte :=
  [v.extractLsb' 0 8, v.extractLsb' 8 8, v.extractLsb' 16 8, v.extractLsb' 24 8]

/-- The bytes of an instruction at increasing addresses, from the table of R52 and the formats of R50. -/
def encode : Instr → List Byte
  | .movR0 v => 0xB8#8 :: immediateBytes v
  | .movR1 v => 0xB9#8 :: immediateBytes v
  | .movR2 v => 0xBA#8 :: immediateBytes v
  | .movR3 v => 0xBB#8 :: immediateBytes v
  | .movR4 v => 0xBC#8 :: immediateBytes v
  | .movR5 v => 0xBD#8 :: immediateBytes v
  | .movR6 v => 0xBE#8 :: immediateBytes v
  | .movR7 v => 0xBF#8 :: immediateBytes v
  | .jmpRel8 d => [0xEB#8, BitVec.ofInt 8 d]

/-! ### The opcode table's numbering -/

/-- The low `8n` bits of a number as `n` bytes, the least significant first: the order of addresses, since bit 0 of the
table's numbering is the least significant bit of the first byte. -/
def natBytes (w : Nat) : Nat → List Byte
  | 0 => []
  | n + 1 => BitVec.ofNat 8 w :: natBytes (w / 256) n

/-- An instruction whose low `nbits` bits are `w`, laid out as five bytes (the longest instruction, R5); every bit above
`nbits` is 0. -/
def wordBytes (nbits w : Nat) : List Byte := natBytes (w % 2 ^ nbits) 5

/-- The instruction the decoder reads from those bytes. -/
def decodeTableWord (nbits w : Nat) : Option Instr :=
  match decode (wordBytes nbits w) with
  | .error _ => none
  | .ok (i, _) => some i

end Sys2Proof
end

