-- ==== Sys2Proof/Machine/Memory.lean ====
section
/-! DEFINITION. The memory buffer (20_memory.md): its form, how an image becomes one, and what an address holds. -/

namespace Sys2Proof.Machine

/-- The memory buffer: `MEM_SIZE` and the bytes that are not 0, by rising address. The spec gives every address below
`MEM_SIZE` a byte and no other address (R30); leaving the zero bytes out of the list is only how the buffer is written
down (log 3). -/
structure Memory where
  size : Nat
  cells : List Host.Cell
deriving DecidableEq, Repr

/-- What an address below `MEM_SIZE` that the list leaves out reads as (log 3). -/
def Memory.unlisted : Byte := 0#8

/-- The cells are at strictly rising addresses from `lo` on, all below `hi`, and none holds the unlisted byte. -/
def cellsWf (lo hi : Nat) : List Host.Cell → Bool
  | [] => true
  | (k, b) :: cs => decide (lo ≤ k) && decide (k < hi) && decide (b ≠ Memory.unlisted) && cellsWf (k + 1) hi cs

/-- The canonical form: a size the spec allows (R6, D2), and canonical cells inside the buffer. -/
def Memory.wf (m : Memory) : Bool := decide (m.size ≤ Config.maxMemSize) && cellsWf 0 m.size m.cells

/-- The byte of a cell list at an address. -/
def cellAt : List Host.Cell → Nat → Byte
  | [], _ => Memory.unlisted
  | (k, b) :: cs, a => if k = a then b else cellAt cs a

/-- `Mem[a]`, defined only below `MEM_SIZE` (R30). -/
def Memory.get (m : Memory) (a : Nat) : Option Byte := if a < m.size then some (cellAt m.cells a) else none

/-- The cells of an image placed from address `a` on. -/
def imageCells (a : Nat) : List Byte → List Host.Cell
  | [] => []
  | b :: bs => if b = Memory.unlisted then imageCells (a + 1) bs else (a, b) :: imageCells (a + 1) bs

/-- The buffer is the image: `MEM_SIZE` is its length and `Mem[a] = IMAGE[a]` (R31, R135; decision D1, log 3). -/
def Memory.ofImage (image : List Byte) : Memory where
  size := image.length
  cells := imageCells 0 image

/-! ### Placing bytes from outside

No instruction stores (R33). These operations stand for the host's loading of the image before a run (R4, R136), and only
`State.withFetchWord` uses them (log 2, log 15). -/

/-- One byte put into a cell list, in canonical form. -/
def placeCell : List Host.Cell → Nat → Byte → List Host.Cell
  | [], a, b => if b = Memory.unlisted then [] else [(a, b)]
  | (k, c) :: cs, a, b =>
    if a < k then (if b = Memory.unlisted then (k, c) :: cs else (a, b) :: (k, c) :: cs)
    else if a = k then (if b = Memory.unlisted then cs else (a, b) :: cs)
    else (k, c) :: placeCell cs a b

/-- One byte of the image set by the host, the buffer made longer if it has to be; an address of `2^32` or more does not
exist (R6, R37), so nothing is placed there. -/
def Memory.place (m : Memory) (a : Nat) (b : Byte) : Memory :=
  if a < Config.maxMemSize then { size := max m.size (a + 1), cells := placeCell m.cells a b } else m

/-- Bytes of the image set by the host at ascending addresses. -/
def Memory.placeAll (m : Memory) (a : Nat) : List Byte → Memory
  | [] => m
  | b :: bs => (m.place a b).placeAll (a + 1) bs

end Sys2Proof.Machine
end

