-- ==== Sys2Proof/Machine/State.lean ====
section
/-! DEFINITION. The whole state of the hardware (10_state.md), the reasons a step stops, and construction (reset). -/

namespace Sys2Proof.Machine

/-- The reasons a step stops: the three fatal errors of 60_exceptions.md R110 to R113, each with its recorded value
(decision D4, log 6). There is no other. -/
inductive Fault where
  /-- Raised by stage (b) of `step` when the fetched opcode byte has no handler; the payload is that byte (R72, R111).
  Safe: the spec names this stop. -/
  | decodeError (op : Byte)
  /-- Raised by the load-immediate handler's guard on an index above 7; the payload is the index (R94, R112). No step
  raises it. Safe: the spec names this stop. -/
  | registerIndexError (i : Nat)
  /-- Raised by any read of a byte outside the buffer; the payload is the lowest such address (R36, R113, decision D5,
  log 7). Safe as a stop; the payload of a partly out-of-bounds read is unsafe to rely on. -/
  | outOfBounds (a : Nat)
deriving DecidableEq, Repr

/-- Why there is no meaning to give. The hardware itself refuses nothing: every byte value decodes to something (R78). -/
inductive Refusal where
  /-- An instruction that has no meaning yet. Raised by no arm of this model. Safe. -/
  | notModelled (mnemonic : String)
  /-- Raised by `step` in phase Halted or Faulted, from which no step is defined (10_state.md R23, 60_exceptions.md R110;
  log 11). Safe. -/
  | runEnded
deriving DecidableEq, Repr

/-- Where a run stands (10_state.md R23, decision D8, log 9). No instruction reads it. -/
inductive Phase where
  /-- The run goes on: reset, and every completed instruction that leaves `eip` non-zero. -/
  | running
  /-- The normal end: a completed instruction left `eip = 0` (R75, R142). -/
  | halted
  /-- The run ended in a fatal error, with its recorded value (R110). -/
  | faulted (f : Fault)
deriving DecidableEq, Repr

/-- All the state there is (R10, R23): eight general registers, the instruction pointer, the memory buffer, the phase. -/
structure State where
  /-- `x[0]` to `x[7]` (R11). -/
  regs : Vector Word 8
  /-- The instruction pointer (R16). -/
  eip : Word
  /-- The memory buffer (R22). -/
  mem : Memory
  /-- The run phase (R23). -/
  phase : Phase
deriving DecidableEq, Repr

/-- `Reset(INIT_EIP, INIT_SP, IMAGE)`, the document's construction (70_reset_and_hazards.md R135, 10_state.md R24), for
any inputs. An image is at most `2^32` bytes (R6, D2); a longer one is no input of the hardware (log 16). -/
def State.construct (initEip initSp : Word) (image : List Byte) : State where
  regs := #v[0#32, 0#32, 0#32, 0#32, initSp, 0#32, 0#32, 0#32]
  eip := initEip
  mem := Memory.ofImage image
  phase := .running

/-- The machine right after construction from the inputs that Config names (log 1). -/
def State.reset : State := State.construct Config.initEip Config.initSp Config.image

end Sys2Proof.Machine
end

