-- ==== Sys2Proof/Machine/Ops.lean ====
section
/-! DEFINITION. The named operations: bounds-checked reads, register access, the writes of `eip`, taking a fatal error. -/

namespace Sys2Proof.Machine

/-! ### Memory (20_memory.md) -/

/-- `Mem[a]` with its bounds check: beyond the buffer, `OutOfBounds(a)` (R36, R37). -/
def Memory.byteAt (m : Memory) (a : Nat) : Except Fault Byte :=
  match m.get a with
  | some b => .ok b
  | none => .error (.outOfBounds a)

/-- `MemRead(a, n)` (R36): the bytes are checked in ascending order and assembled little-endian. -/
def Memory.memRead (m : Memory) (a n : Nat) : Except Fault (BitVec (8 * n)) := readUnsigned m.byteAt a n

/-- `ReadByte(off)` (R38). The address `eip + off` is a mathematical integer (R37, D2, log 4). -/
def readByte (s : State) (off : Nat) : Except Fault Byte := s.mem.memRead (s.eip.toNat + off) 1

/-- `ReadSignedByte(off)` (R39). -/
def readSignedByte (s : State) (off : Nat) : Except Fault Int :=
  match readByte s off with
  | .error f => .error f
  | .ok b => .ok (signExtendByte b)

/-- `ReadDoubleWord(off)` (R40). -/
def readDoubleWord (s : State) (off : Nat) : Except Fault Word := s.mem.memRead (s.eip.toNat + off) 4

/-! ### Registers (10_state.md) -/

/-- `x[i]` (R11). -/
def State.reg (s : State) (i : Fin 8) : Word := s.regs[i]

/-- `x[i] <- v`, all 32 bits of one register (R13). No register is hard-wired (R11). -/
def State.setReg (s : State) (i : Fin 8) (v : Word) : State := { s with regs := s.regs.set i v }

/-- `eip <- t mod 2^32` for a mathematical integer `t`: the one write of `eip`, the last action of a handler (R17, R74). -/
def State.setEip (s : State) (t : Int) : State := { s with eip := BitVec.ofInt 32 t }

/-- The new phase of a state. -/
def State.setPhase (s : State) (p : Phase) : State := { s with phase := p }

/-! ### Fatal errors (60_exceptions.md) -/

/-- `raise E(info)` (R110): the phase becomes Faulted and nothing else is written; the registers and `eip` stay as they
were when the step began (R117), and there is no handler, no saved state and no return (R120, R121). -/
def State.raise (s : State) (f : Fault) : State := s.setPhase (.faulted f)

/-- The state a step from `s` leaves behind, given its outcome: a fatal error is taken by `raise`, and where no step is
defined nothing changes (R23). -/
def settle (s : State) : Host.Outcome State Fault Refusal → State
  | .next t => t
  | .fault f => s.raise f
  | .refused _ => s

end Sys2Proof.Machine
end

