-- ==== Sys2Proof/Machine/Operands.lean ====
section
/-! DEFINITION. The two operand forms of the hardware, read relative to the opcode byte (20_memory.md R34, R41). -/

namespace Sys2Proof.Machine

/-- Fetch, decode and operand reads from the machine's memory at `eip` (R71, R72, R73 part 1), with the three fatal errors
in the order of R119. Nothing is written. -/
def fetch (s : State) : Except Fault Instr :=
  decodeWith (readByte s) (readSignedByte s) (readDoubleWord s) .decodeError .registerIndexError

end Sys2Proof.Machine
end

