-- ==== Sys2Proof/Machine/LoadImmediate.lean ====
section
/-! DEFINITION. The load-immediate family (41_load_immediate.md). -/

namespace Sys2Proof.Machine

/-- The general rule R85, with the operand already read: `x[i] <- v`, then `eip <- (eip + 5) mod 2^32` (the wrap is the
spec's decision D3, log 5). -/
def loadImmediate (i : Fin 8) (v : Word) (s : State) : Host.Outcome State Fault Refusal :=
  .next ((s.setReg i v).setEip ((s.eip.toNat : Int) + 5))

/-- R86. -/
def execMovR0 (imm32 : Word) (s : State) : Host.Outcome State Fault Refusal := loadImmediate 0 imm32 s

/-- R87. -/
def execMovR1 (imm32 : Word) (s : State) : Host.Outcome State Fault Refusal := loadImmediate 1 imm32 s

/-- R88. -/
def execMovR2 (imm32 : Word) (s : State) : Host.Outcome State Fault Refusal := loadImmediate 2 imm32 s

/-- R89. -/
def execMovR3 (imm32 : Word) (s : State) : Host.Outcome State Fault Refusal := loadImmediate 3 imm32 s

/-- R90. -/
def execMovR4 (imm32 : Word) (s : State) : Host.Outcome State Fault Refusal := loadImmediate 4 imm32 s

/-- R91. -/
def execMovR5 (imm32 : Word) (s : State) : Host.Outcome State Fault Refusal := loadImmediate 5 imm32 s

/-- R92. -/
def execMovR6 (imm32 : Word) (s : State) : Host.Outcome State Fault Refusal := loadImmediate 6 imm32 s

/-- R93. -/
def execMovR7 (imm32 : Word) (s : State) : Host.Outcome State Fault Refusal := loadImmediate 7 imm32 s

end Sys2Proof.Machine
end

