-- ==== Sys2Proof/Machine/RelativeJump.lean ====
section
/-! DEFINITION. The relative short jump (42_relative_jump.md). -/

namespace Sys2Proof.Machine

/-- The target before reduction: the sum `eip + 2 + d` of mathematical integers, `eip` unsigned and `d` signed (R101). -/
def jumpTarget (eip : Word) (d : Int) : Int := (eip.toNat : Int) + 2 + d

/-- R100, with the operand already read: `eip <- (eip + 2 + d) mod 2^32`; no register is read or written. -/
def execJmpRel8 (rel8 : Int) (s : State) : Host.Outcome State Fault Refusal := .next (s.setEip (jumpTarget s.eip rel8))

end Sys2Proof.Machine
end

