-- ==== Sys2Proof/Machine/Dispatch.lean ====
section
/-! DEFINITION. The meaning of each instruction: stage (c) of a step (40_fetch_dispatch.md R73), one arm per constructor. -/

namespace Sys2Proof.Machine

def exec (i : Instr) (s : State) : Host.Outcome State Fault Refusal :=
  match i with
  | .movR0 imm32 => Sys2Proof.Machine.execMovR0 imm32 s
  | .movR1 imm32 => Sys2Proof.Machine.execMovR1 imm32 s
  | .movR2 imm32 => Sys2Proof.Machine.execMovR2 imm32 s
  | .movR3 imm32 => Sys2Proof.Machine.execMovR3 imm32 s
  | .movR4 imm32 => Sys2Proof.Machine.execMovR4 imm32 s
  | .movR5 imm32 => Sys2Proof.Machine.execMovR5 imm32 s
  | .movR6 imm32 => Sys2Proof.Machine.execMovR6 imm32 s
  | .movR7 imm32 => Sys2Proof.Machine.execMovR7 imm32 s
  | .jmpRel8 rel8 => Sys2Proof.Machine.execJmpRel8 rel8 s

end Sys2Proof.Machine
end

