-- ==== Sys2Proof/Machine/Flags.lean ====
section
/-! DEFINITION. The hardware has no flag, no condition code and no predicate, and a model must not add one (10_state.md
R20). The one condition it computes is the halt test of the dispatch loop. -/

namespace Sys2Proof.Machine

/-- The terminal condition: `eip` is exactly the halt sentinel (40_fetch_dispatch.md R75). -/
def haltCondition (eip : Word) : Bool := eip == Config.haltSentinel

/-- Stage (d), made after a completed instruction only (R75, R76): `eip = 0` ends the run, otherwise the phase stays. It
reads `eip` and nothing else. -/
def haltTest (s : State) : State := if haltCondition s.eip then s.setPhase .halted else s

end Sys2Proof.Machine
end

