-- ==== Sys2Proof/Machine/Step.lean ====
section
/-! DEFINITION. One step (40_fetch_dispatch.md R78), and the placing of an instruction where the next step fetches. -/

namespace Sys2Proof.Machine

/-- What the loop does after the handler: the halt test, made only if no error was raised (R75, R119). -/
def afterHandler : Host.Outcome State Fault Refusal → Host.Outcome State Fault Refusal
  | .next t => .next (haltTest t)
  | .fault f => .fault f
  | .refused r => .refused r

/-- `Step()` of R78. Running and Halted are next states and every `raise` is a fault, as R78 says; `settle` gives the state
with phase Faulted. From Halted and Faulted no step is defined (R23, log 11). -/
def step (s : State) : Host.Outcome State Fault Refusal :=
  match s.phase with
  | .running =>
    match fetch s with
    | .error f => .fault f
    | .ok i => afterHandler (exec i s)
  | .halted => .refused .runEnded
  | .faulted _ => .refused .runEnded

/-- The state with the instruction of the table's word `w` in the buffer at `eip`, and the phase Running, so that the next
step fetches and runs it (log 2, log 15). -/
def State.withFetchWord (s : State) (nbits w : Nat) : State :=
  { s with mem := s.mem.placeAll s.eip.toNat (wordBytes nbits w), phase := .running }

end Sys2Proof.Machine
end

