-- ==== Sys2Proof/Machine/Assembler.lean ====
section
/-! DEFINITION. The spec's assembler syntax (30_encoding.md R60 to R63, decision D9) and register names (10_state.md R12).
No rule of semantics depends on it, and nothing in the machine calls it. -/

namespace Sys2Proof.Machine

/-! ### Names -/

/-- The spec's name of a register (R12, decision D10). -/
def registerName (i : Fin 8) : String :=
  match i with
  | 0 => "r0"
  | 1 => "r1"
  | 2 => "r2"
  | 3 => "r3"
  | 4 => "r4"
  | 5 => "r5"
  | 6 => "r6"
  | 7 => "r7"

/-- The document's role of a register, a name only (R12). -/
def registerRole (i : Fin 8) : String :=
  match i with
  | 0 => "accumulator"
  | 1 => "counter"
  | 2 => "data"
  | 3 => "base"
  | 4 => "stack-pointer"
  | 5 => "base-pointer"
  | 6 => "source-index"
  | 7 => "destination-index"

/-! ### Lines -/

/-- A line of assembly: the three ways of R61 and R62. -/
inductive AsmLine where
  /-- `MOV r<i>, <imm32>` -/
  | mov (i : Nat) (imm32 : Int)
  /-- `JMP <d>`, the displacement itself -/
  | jmpBy (d : Int)
  /-- `JMP @<t>`, the target address -/
  | jmpTo (t : Nat)
deriving DecidableEq, Repr

/-- The instruction a line placed at address `p` stands for, if the assembler accepts it. A negative immediate `-n` with
`1 <= n <= 2^31` stands for `2^32 - n` (R61); a target gives `d = t - (p + 2)`, rejected outside `-128 .. 127` (R62). R62 gives neither `t` nor `p` a range: the model
takes every natural number for both, also one of 2^32 or more, which is no value of `eip`, and tests `d` alone (DESIGN
CHOICE, log 17). Such a line's jump goes to `t mod 2^32` when it is executed at `p`. -/
def AsmLine.toInstr (p : Nat) : AsmLine → Option Instr
  | .mov i n =>
    if h : i < 8 then
      if -2147483648 ≤ n ∧ n < 4294967296 then some (Instr.mov ⟨i, h⟩ (BitVec.ofInt 32 n)) else none
    else none
  | .jmpBy d => if displacementOk d then some (.jmpRel8 d) else none
  | .jmpTo t => if displacementOk ((t : Int) - ((p : Int) + 2)) then some (.jmpRel8 ((t : Int) - ((p : Int) + 2))) else none

/-- The bytes of a line placed at address `p` (R61, R62). -/
def AsmLine.assemble (p : Nat) (l : AsmLine) : Option (List Byte) := (l.toInstr p).map encode

/-! ### Text -/

/-- The value of a digit, in base 10 or 16; both cases of a hexadecimal letter are the same number (00_scope.md section
6.1, log 17). -/
def digitValue (base : Nat) (c : Char) : Option Nat :=
  let v :=
    if 48 ≤ c.toNat ∧ c.toNat ≤ 57 then c.toNat - 48
    else if 65 ≤ c.toNat ∧ c.toNat ≤ 70 then c.toNat - 55
    else if 97 ≤ c.toNat ∧ c.toNat ≤ 102 then c.toNat - 87
    else base
  if v < base then some v else none

/-- Digits read after the ones that gave `acc`. -/
def parseDigitsFrom (base acc : Nat) : List Char → Option Nat
  | [] => some acc
  | c :: cs =>
    match digitValue base c with
    | some v => parseDigitsFrom base (acc * base + v) cs
    | none => none

/-- A number in decimal or with the prefix 0x (R61); at least one digit. Leading zeros are accepted and change nothing,
which is the model's choice (DESIGN CHOICE, log 17): R61 does not speak of them. -/
def parseNumber : List Char → Option Nat
  | [] => none
  | '0' :: 'x' :: [] => none
  | '0' :: 'x' :: cs => parseDigitsFrom 16 0 cs
  | cs => parseDigitsFrom 10 0 cs

/-- A number with an optional minus sign (R61). The digits after the sign may be decimal or carry the prefix 0x, and a
signed zero `-0` is accepted and is 0. Both are the model's choice (DESIGN CHOICE, log 17): R61 admits a minus sign for
`-n` with `1 <= n` and says neither what `-0` is nor in which base `n` is written. A plus sign is not accepted. -/
def parseSigned : List Char → Option Int
  | '-' :: cs => (parseNumber cs).map (fun n => -(n : Int))
  | cs => (parseNumber cs).map (fun n => (n : Int))

/-- A line of text (R61, R62), spelled as the spec spells it, one space after the mnemonic and one after the comma (log
17). A displacement carries an explicit sign; a target carries `@`. `JMP -0` is accepted and is `JMP +0`, the model's
choice (DESIGN CHOICE, log 17): R62 asks for an explicit sign and shows `+0` only. -/
def parseLine : List Char → Option AsmLine
  | 'M' :: 'O' :: 'V' :: ' ' :: 'r' :: c :: ',' :: ' ' :: cs =>
    match digitValue 10 c, parseSigned cs with
    | some i, some n => if i < 8 then some (.mov i n) else none
    | _, _ => none
  | 'J' :: 'M' :: 'P' :: ' ' :: '@' :: cs => (parseNumber cs).map .jmpTo
  | 'J' :: 'M' :: 'P' :: ' ' :: '+' :: cs => (parseNumber cs).map (fun n => .jmpBy (n : Int))
  | 'J' :: 'M' :: 'P' :: ' ' :: '-' :: cs => (parseNumber cs).map (fun n => .jmpBy (-(n : Int)))
  | _ => none

/-- The bytes of a line of text placed at address `p`. -/
def assembleText (p : Nat) (line : List Char) : Option (List Byte) :=
  match parseLine line with
  | some l => l.assemble p
  | none => none

end Sys2Proof.Machine
end

