-- ==== Sys2Proof/Machine/Run.lean ====
section
/-! DEFINITION. The dispatch loop (40_fetch_dispatch.md R70) as a function of states, and the two outputs of a run
(70_reset_and_hazards.md R139). -/

namespace Sys2Proof.Machine

/-- One turn of the loop as a state function: a step from a Running state, its fatal error taken by `raise` (R110); Halted
and Faulted stay as they are (R23). -/
def advance (s : State) : State := settle s (step s)

/-- `n` turns of the loop. Running out of turns is no end of the run (R79, decision D13, log 19). -/
def runFor : Nat → State → State
  | 0, s => s
  | n + 1, s => runFor n (advance s)

/-! ### Outputs -/

/-- The nine values exposed at a normal end (R77). -/
structure Output where
  regs : Vector Word 8
  eip : Word
deriving DecidableEq, Repr

/-- The termination output: when, and only when, the phase is Halted (R77, R122). -/
def State.output (s : State) : Option Output :=
  match s.phase with
  | .halted => some { regs := s.regs, eip := s.eip }
  | .running => none
  | .faulted _ => none

/-- The fatal-error signal `(E, info)`: only in phase Faulted (R116, R139). -/
def State.faultSignal (s : State) : Option Fault :=
  match s.phase with
  | .faulted f => some f
  | .running => none
  | .halted => none

/-- The cause code of an error (R114, decision D4, log 6). -/
def Fault.code : Fault → Nat
  | .decodeError _ => 1
  | .registerIndexError _ => 2
  | .outOfBounds _ => 3

/-- The recorded value of an error (R111 to R114). -/
def Fault.info : Fault → Nat
  | .decodeError op => op.toNat
  | .registerIndexError i => i
  | .outOfBounds a => a

/-- The cause code of a state: 0 where there is no error (R114). -/
def State.causeCode (s : State) : Nat :=
  match s.faultSignal with
  | some f => f.code
  | none => 0

end Sys2Proof.Machine
end

