-- ==== Sys2Proof/Safety.lean ====
section
/-! DEFINITION. The terms claims are stated in: bytes standing in memory, the invariant of the machine, how runs end. -/

namespace Sys2Proof.Machine

/-- The bytes `bs` stand in the buffer at `a, a+1, …`. -/
def Memory.holds (m : Memory) (a : Nat) (bs : List Byte) : Prop :=
  ∀ (k : Nat) (b : Byte), bs[k]? = some b → m.byteAt (a + k) = .ok b

/-- What a fatal error says about the state it stopped in, which is the state of the faulting step (60_exceptions.md R111,
R112, R113, R117): the undefined opcode stands at `eip`; the address is outside the buffer and is one the instruction at
`eip` reads; a register-index error never happens. -/
def faultFits (s : State) : Fault → Prop
  | .decodeError op => s.mem.byteAt s.eip.toNat = .ok op ∧ decodeOpcode op = .undefined op
  | .registerIndexError _ => False
  | .outOfBounds a => s.mem.size ≤ a ∧ s.eip.toNat ≤ a ∧ a ≤ s.eip.toNat + 4

/-- What the phase says about the rest of the state (R23, R75, R142). -/
def phaseFits (s : State) : Prop :=
  match s.phase with
  | .running => True
  | .halted => s.eip = Config.haltSentinel
  | .faulted f => faultFits s f

/-- The invariant of the machine: canonical memory of an allowed size, and a phase that fits the state. -/
def State.Inv (s : State) : Prop := s.mem.wf = true ∧ phaseFits s

/-- A run from `s` ends normally (R142): at some point the phase is Halted. -/
def EndsNormally (s : State) : Prop := ∃ n, (runFor n s).phase = .halted

/-- A run from `s` ends in a fatal error (R142). -/
def EndsInFault (s : State) : Prop := ∃ n f, (runFor n s).phase = .faulted f

/-- A run from `s` never ends (R79). -/
def RunsForever (s : State) : Prop := ∀ n, (runFor n s).phase = .running

/-- A safe run meets no fatal error, at no point. -/
def SafeRun (s : State) : Prop := ∀ n f, (runFor n s).phase ≠ .faulted f

end Sys2Proof.Machine
end

