-- ==== Sys2Proof/Certificates/Slice0/Obligations.lean ====
section
/-! DEFINITION. The statements for the provers. "p" stands for the value of `eip` when the instruction begins. A docstring
says which rule of spec/ a statement formalises, and names a decision of the spec or of the model where it rests on one. -/

open Sys2Proof Sys2Proof.Machine

/-! ### Encoding (30_encoding.md) -/

/-- Decoding the encoding of a well-formed instruction, with any bytes after it, gives the instruction and those bytes: all
nine instructions, every immediate, every displacement (30_encoding.md sections 1 to 3). -/
def Obligations.DecodeOfEncodeGivesTheInstruction : Prop :=
  ∀ (i : Instr) (rest : List Byte), i.wf = true → decode (encode i ++ rest) = .ok (i, rest)

/-- Each byte sequence has one meaning: what decodes is well-formed, and its bytes are its encoding. -/
def Obligations.EncodeOfDecodeGivesTheBytes : Prop :=
  ∀ (bs rest : List Byte) (i : Instr), decode bs = .ok (i, rest) → i.wf = true ∧ bs = encode i ++ rest

/-- Words written out from the table of R52 and the byte tables of section 1. -/
def Obligations.WrittenOutWordsDecode : Prop :=
  decode [0b10111000#8, 0x01#8, 0x00#8, 0x00#8, 0x00#8] = .ok (.movR0 1#32, []) ∧
  decode [0b10111001#8, 0x78#8, 0x56#8, 0x34#8, 0x12#8] = .ok (.movR1 0x12345678#32, []) ∧
  decode [0b10111111#8, 0x2A#8, 0x00#8, 0x00#8, 0x00#8, 0xEB#8] = .ok (.movR7 0x2A#32, [0xEB#8]) ∧
  decode [0b11101011#8, 0xF9#8] = .ok (.jmpRel8 (-7), [])

/-- The dispatch function on each of the 256 bytes (30_encoding.md section 2 and section 4). -/
def Obligations.OpcodeDispatchIsTotalAndClosed : Prop :=
  ∀ op : Byte,
    (0xB8 ≤ op.toNat → op.toNat ≤ 0xBF → decodeOpcode op = .loadImm (op.toNat - 0xB8)) ∧
    (op.toNat = 0xEB → decodeOpcode op = .jmpShort) ∧
    (op.toNat < 0xB8 ∨ (0xBF < op.toNat ∧ op.toNat ≠ 0xEB) → decodeOpcode op = .undefined op)

/-- R57. The undefined opcodes are the 247 bytes 0x00 to 0xB7, 0xC0 to 0xEA and 0xEC to 0xFF, and fetching one is a
DecodeError with that byte. -/
def Obligations.UndefinedOpcodeIsDecodeError : Prop :=
  (∀ op : Byte, decodeOpcode op = .undefined op ↔
    op.toNat ≤ 0xB7 ∨ (0xC0 ≤ op.toNat ∧ op.toNat ≤ 0xEA) ∨ 0xEC ≤ op.toNat) ∧
  ((List.range 256).filter (fun n => decodeOpcode (BitVec.ofNat 8 n) == .undefined (BitVec.ofNat 8 n))).length = 247 ∧
  ∀ (s : State) (op : Byte), s.phase = .running → s.mem.byteAt s.eip.toNat = .ok op →
    op.toNat ≤ 0xB7 ∨ (0xC0 ≤ op.toNat ∧ op.toNat ≤ 0xEA) ∨ 0xEC ≤ op.toNat →
    step s = .fault (.decodeError op)

/-! ### The operand decoder (20_memory.md section 2) -/

/-- `MemRead(a, n)`: inside the buffer the little-endian value of the `n` bytes, otherwise `OutOfBounds` with the lowest
address outside, which is the spec's decision D5 (log 7). Addresses are not reduced, the spec's decision D2 (log 4). -/
def Obligations.MemReadIsLittleEndianOrLowestOutside : Prop :=
  ∀ (m : Memory) (a n : Nat),
    (a + n ≤ m.size → ∃ bs : List Byte, bs.length = n ∧ m.holds a bs ∧
      m.memRead a n = .ok (BitVec.ofNat (8 * n) (littleEndian bs))) ∧
    (0 < n → m.size < a + n → m.memRead a n = .error (.outOfBounds (max a m.size)))

/-- `ReadSignedByte(off)`: the byte `ReadByte(off)` gives, as a two's-complement value, with the same bounds check. -/
def Obligations.SignedByteReadExtendsTheSign : Prop :=
  ∀ (s : State) (off : Nat),
    (∀ f, readByte s off = .error f → readSignedByte s off = .error f) ∧
    (∀ b, readByte s off = .ok b → readSignedByte s off = .ok b.toInt ∧
      (b.toNat ≤ 0x7F → readSignedByte s off = .ok (b.toNat : Int)) ∧
      (0x80 ≤ b.toNat → readSignedByte s off = .ok ((b.toNat : Int) - 256)))

/-- `ReadDoubleWord(off)`: the sum of the four bytes, or nothing at all. -/
def Obligations.DoubleWordReadIsTheFourByteSum : Prop :=
  ∀ (s : State) (off : Nat),
    (∀ b0 b1 b2 b3, s.mem.byteAt (s.eip.toNat + off) = .ok b0 → s.mem.byteAt (s.eip.toNat + off + 1) = .ok b1 →
      s.mem.byteAt (s.eip.toNat + off + 2) = .ok b2 → s.mem.byteAt (s.eip.toNat + off + 3) = .ok b3 →
      ∃ v, readDoubleWord s off = .ok v ∧
        v.toNat = b0.toNat + b1.toNat * 2 ^ 8 + b2.toNat * 2 ^ 16 + b3.toNat * 2 ^ 24) ∧
    (∀ k, k < 4 → s.mem.size ≤ s.eip.toNat + off + k → ∃ a, readDoubleWord s off = .error (.outOfBounds a))

/-- Mixed-width views: the bytes of a double word read at `a` are the byte reads at `a` to `a + 3`. -/
def Obligations.ByteReadsAreSlicesOfTheDoubleWord : Prop :=
  ∀ (m : Memory) (a : Nat) (v : Word), m.memRead a 4 = .ok v →
    m.memRead a 1 = .ok (v.extractLsb' 0 8) ∧ m.memRead (a + 1) 1 = .ok (v.extractLsb' 8 8) ∧
    m.memRead (a + 2) 1 = .ok (v.extractLsb' 16 8) ∧ m.memRead (a + 3) 1 = .ok (v.extractLsb' 24 8)

/-! ### The buffer and reset -/

/-- Equal buffers are equal data: the canonical form has one way to write a buffer (log 3). -/
def Obligations.EqualBuffersAreEqualData : Prop :=
  ∀ m m' : Memory, m.wf = true → m'.wf = true → m.size = m'.size → (∀ a, m.get a = m'.get a) → m = m'

/-- Every canonical buffer is the buffer of some image, so the model's memory is neither more nor less than the spec's
(log 3). -/
def Obligations.EveryBufferIsAnImage : Prop :=
  ∀ m : Memory, m.wf = true → ∃ img : List Byte, img.length = m.size ∧ Memory.ofImage img = m

/-- The reset table of 10_state.md section 6, for all inputs: registers, `eip`, phase, and `Mem[a] = IMAGE[a]` with nothing
after it, which is the spec's decision D1 (log 3). -/
def Obligations.ConstructionIsTheResetTable : Prop :=
  ∀ (initEip initSp : Word) (image : List Byte),
    (∀ i : Fin 8, (State.construct initEip initSp image).reg i = if i = 4 then initSp else 0#32) ∧
    (State.construct initEip initSp image).eip = initEip ∧
    (State.construct initEip initSp image).phase = .running ∧
    (State.construct initEip initSp image).mem.size = image.length ∧
    (∀ a b, image[a]? = some b → (State.construct initEip initSp image).mem.byteAt a = .ok b) ∧
    (∀ a, image.length ≤ a → (State.construct initEip initSp image).mem.byteAt a = .error (.outOfBounds a))

/-- The entry point is `INIT_EIP` whatever its value (70_reset_and_hazards.md section 1): the first opcode fetch is there,
and a value outside the buffer makes the first step raise `OutOfBounds(INIT_EIP)`. That the byte at `INIT_EIP` is the
image's, and that the buffer ends where the image ends, is the spec's decision D1 (log 3). -/
def Obligations.EntryPointIsInitEip : Prop :=
  ∀ (initEip initSp : Word) (image : List Byte),
    (State.construct initEip initSp image).eip = initEip ∧
    (∀ op, image[initEip.toNat]? = some op → readByte (State.construct initEip initSp image) 0 = .ok op) ∧
    (image.length ≤ initEip.toNat →
      step (State.construct initEip initSp image) = .fault (.outOfBounds initEip.toNat))

/-- The halt test is not made before the first instruction (40_fetch_dispatch.md section 2): every construction is Running,
and from `INIT_EIP = 0` the instruction at address 0 is executed, and the test made after it; a state with `eip = 0` is an
end when it is Halted. That the instruction at address 0 is the one the image begins with is the spec's decision D1 (log
3). -/
def Obligations.StartAtZeroExecutes : Prop :=
  (∀ (initEip initSp : Word) (image : List Byte), (State.construct initEip initSp image).phase = .running) ∧
  (∀ (initSp : Word) (image rest : List Byte) (i : Instr), decode image = .ok (i, rest) →
    ∃ t, exec i (State.construct 0#32 initSp image) = .next t ∧
      step (State.construct 0#32 initSp image) = .next (haltTest t)) ∧
  ∀ (s : State) (n : Nat), s.eip = 0#32 → s.phase = .halted → runFor n s = s

/-! ### The instructions -/

/-- Load-immediate, all eight: it completes in every state; the named register is the immediate, bit-exact; the other seven
registers, every byte of memory and the phase are unchanged; `eip` is `p + 5` in 32 bits, whose wrap at the top is the
spec's decision D3 (log 5). -/
def Obligations.MovLoadsItsRegisterAndNothingElse : Prop :=
  ∀ (s : State) (v : Word) (r : Fin 8) (i : Instr),
    (r, i) ∈ [((0 : Fin 8), Instr.movR0 v), (1, .movR1 v), (2, .movR2 v), (3, .movR3 v), (4, .movR4 v), (5, .movR5 v),
      (6, .movR6 v), (7, .movR7 v)] →
    ∃ t, exec i s = .next t ∧ t.reg r = v ∧ (∀ j, j ≠ r → t.reg j = s.reg j) ∧
      t.eip.toNat = (s.eip.toNat + 5) % 2 ^ 32 ∧ (∀ a, t.mem.byteAt a = s.mem.byteAt a) ∧ t.phase = s.phase

/-- The relative short jump: it completes in every state; `eip` is `(p + 2 + d) mod 2^32`; every register, every byte of
memory and the phase are unchanged. -/
def Obligations.JmpMovesOnlyTheInstructionPointer : Prop :=
  ∀ (s : State) (d : Int), -128 ≤ d → d ≤ 127 →
    ∃ t, exec (.jmpRel8 d) s = .next t ∧ (t.eip.toNat : Int) = ((s.eip.toNat : Int) + 2 + d) % 2 ^ 32 ∧
      (∀ j, t.reg j = s.reg j) ∧ (∀ a, t.mem.byteAt a = s.mem.byteAt a) ∧ t.phase = s.phase

/-- The target of a jump with displacement byte `b`: exact signed arithmetic reduced to 32 bits, and the three equivalent
formulations (a) 64-bit signed and truncated, (b) 32-bit with the sign-extended displacement, (c) by cases. -/
def Obligations.JumpTargetFormulationsAgree : Prop :=
  ∀ (s : State) (b : Byte),
    ∃ t, exec (.jmpRel8 (signExtendByte b)) s = .next t ∧
      (t.eip.toNat : Int) = ((s.eip.toNat : Int) + 2 + b.toInt) % 2 ^ 32 ∧
      t.eip = (s.eip.setWidth 64 + 2#64 + b.signExtend 64).setWidth 32 ∧
      t.eip = s.eip + 2#32 + (if b.toNat < 0x80 then b.setWidth 32 else 0xFFFFFF00#32 + b.setWidth 32) ∧
      (t.eip.toNat : Int) = if b.toNat < 0x80 then ((s.eip.toNat : Int) + 2 + b.toNat) % 2 ^ 32
        else ((s.eip.toNat : Int) + 2 + b.toNat - 256) % 2 ^ 32

/-- The reach of a jump at `p`: exactly the 256 addresses `(p - 126) mod 2^32` to `(p + 129) mod 2^32`. -/
def Obligations.JumpReachIsTwoHundredFiftySixAddresses : Prop :=
  ∀ (s : State) (x : Word),
    (∃ d t, (Instr.jmpRel8 d).wf = true ∧ exec (.jmpRel8 d) s = .next t ∧ t.eip = x) ↔
      (x - (s.eip - 126#32)).toNat < 256

/-! ### The step (40_fetch_dispatch.md) -/

/-- A step runs the decoded instruction: where the bytes at `eip` decode to `i`, the step of a Running state is `exec i`
followed by the halt test. -/
def Obligations.StepRunsTheDecodedInstruction : Prop :=
  ∀ (s : State) (bs rest : List Byte) (i : Instr), s.phase = .running → s.mem.holds s.eip.toNat bs →
    decode bs = .ok (i, rest) → ∃ t, exec i s = .next t ∧ step s = .next (haltTest t)

/-- One step from the five bytes of a load-immediate at `p`, for every register and every immediate. The wrap of `p + 5` is
the spec's decision D3 (log 5). -/
def Obligations.StepOfLoadImmediateBytes : Prop :=
  ∀ (s : State) (r : Fin 8) (v : Word), s.phase = .running →
    s.mem.holds s.eip.toNat
      [BitVec.ofNat 8 (0xB8 + r), v.extractLsb' 0 8, v.extractLsb' 8 8, v.extractLsb' 16 8, v.extractLsb' 24 8] →
    ∃ t, step s = .next t ∧ t.reg r = v ∧ (∀ j, j ≠ r → t.reg j = s.reg j) ∧ t.eip = s.eip + 5#32 ∧
      (∀ a, t.mem.byteAt a = s.mem.byteAt a) ∧ t.phase = if s.eip + 5#32 = 0#32 then .halted else .running

/-- One step from the two bytes of a jump at `p`, for every displacement byte. -/
def Obligations.StepOfJumpBytes : Prop :=
  ∀ (s : State) (b : Byte), s.phase = .running → s.mem.holds s.eip.toNat [0xEB#8, b] →
    ∃ t, step s = .next t ∧ t.eip = s.eip + 2#32 + b.signExtend 32 ∧ (∀ j, t.reg j = s.reg j) ∧
      (∀ a, t.mem.byteAt a = s.mem.byteAt a) ∧
      t.phase = if s.eip + 2#32 + b.signExtend 32 = 0#32 then .halted else .running

/-- The errors of a step in the order they are tested: the fetch, the undefined opcode, the operand; and where none of them
holds the step completes. The lowest address of a partly outside operand is the spec's decision D5 (log 7). -/
def Obligations.StepErrorsComeInOrder : Prop :=
  ∀ s : State, s.phase = .running →
    (s.mem.size ≤ s.eip.toNat → step s = .fault (.outOfBounds s.eip.toNat)) ∧
    ∀ op, s.mem.byteAt s.eip.toNat = .ok op →
      (decodeOpcode op = .undefined op → step s = .fault (.decodeError op)) ∧
      (∀ r, decodeOpcode op = .loadImm r → s.mem.size < s.eip.toNat + 5 →
        step s = .fault (.outOfBounds (max (s.eip.toNat + 1) s.mem.size))) ∧
      (∀ r, decodeOpcode op = .loadImm r → s.eip.toNat + 5 ≤ s.mem.size → ∃ t, step s = .next t) ∧
      (decodeOpcode op = .jmpShort → s.mem.size < s.eip.toNat + 2 →
        step s = .fault (.outOfBounds (s.eip.toNat + 1))) ∧
      (decodeOpcode op = .jmpShort → s.eip.toNat + 2 ≤ s.mem.size → ∃ t, step s = .next t)

/-- No step raises a register-index error: the guard never fires. -/
def Obligations.RegisterIndexErrorIsUnreachable : Prop :=
  ∀ (s : State) (i : Nat), step s ≠ .fault (.registerIndexError i)

/-- Fatal errors are precise: a faulting step leaves every register, `eip` and memory as they were and changes only the
phase; the recorded address of an out-of-bounds error is `eip` itself (the fetch) or `eip + 1` to `eip + 4` (an operand).
For operand errors the precision is the spec's decision D19 (log 20). -/
def Obligations.FatalErrorIsPrecise : Prop :=
  ∀ (s : State) (f : Fault), step s = .fault f →
    (∀ j, (advance s).reg j = s.reg j) ∧ (advance s).eip = s.eip ∧ (advance s).mem = s.mem ∧
    (advance s).phase = .faulted f ∧
    (∀ a, f = .outOfBounds a →
      (s.mem.size ≤ s.eip.toNat ∧ a = s.eip.toNat) ∨
      (s.eip.toNat < s.mem.size ∧ s.eip.toNat + 1 ≤ a ∧ a ≤ s.eip.toNat + 4))

/-- After a completed step the phase is Halted when `eip = 0` and Running otherwise; both families can halt: a jump whose
target is 0 mod 2^32, and a load-immediate at 0xFFFFFFFB, which rests on the spec's decision D3 (log 5). -/
def Obligations.HaltedExactlyWhenEipIsZero : Prop :=
  (∀ s t : State, step s = .next t → (t.phase = .halted ↔ t.eip = 0#32) ∧ (t.phase = .running ↔ t.eip ≠ 0#32)) ∧
  (∀ (s : State) (b : Byte), s.phase = .running → s.mem.holds s.eip.toNat [0xEB#8, b] →
    ((∃ t, step s = .next t ∧ t.phase = .halted) ↔
      (s.eip.toNat : Int) + 2 + b.toInt = 0 ∨ (s.eip.toNat : Int) + 2 + b.toInt = 2 ^ 32)) ∧
  (∀ (s : State) (r : Fin 8) (v : Word), s.phase = .running →
    s.mem.holds s.eip.toNat (BitVec.ofNat 8 (0xB8 + r) :: immediateBytes v) →
    ((∃ t, step s = .next t ∧ t.phase = .halted) ↔ s.eip = 0xFFFFFFFB#32))

/-- A completed step changes at most one general register, `eip` and possibly the phase; a faulting step changes only the
phase. -/
def Obligations.StepChangesAtMostOneRegister : Prop :=
  (∀ s t : State, step s = .next t → ∃ r : Fin 8, (∀ j, j ≠ r → t.reg j = s.reg j) ∧ t.mem = s.mem) ∧
  (∀ (s : State) (f : Fault), step s = .fault f → advance s = { s with phase := .faulted f })

/-- R33. For every step, `Mem` after the step equals `Mem` before it; no instruction stores, and no run does. -/
def Obligations.MemoryIsNeverWritten : Prop :=
  (∀ (i : Instr) (s t : State), exec i s = .next t → t.mem = s.mem) ∧
  (∀ s t : State, step s = .next t → t.mem = s.mem) ∧
  (∀ s : State, (advance s).mem = s.mem) ∧
  (∀ (n : Nat) (s : State), (runFor n s).mem = s.mem)

/-- A step is refused exactly when the run has ended, and then as `runEnded`: the hardware refuses nothing. The refusal of a
step after the end is the model's choice (log 11). -/
def Obligations.OnlyEndedRunsAreRefused : Prop :=
  ∀ (s : State) (r : Refusal), step s = .refused r ↔ (s.phase ≠ .running ∧ r = .runEnded)

/-! ### Invariants -/

/-- The state after the fixed reset meets the invariant. Its inputs are the model's choice (log 1). -/
def Obligations.ResetMeetsTheInvariant : Prop := State.reset.Inv

/-- Construction meets the invariant for every input the hardware allows. -/
def Obligations.ConstructionMeetsTheInvariant : Prop :=
  ∀ (initEip initSp : Word) (image : List Byte), image.length ≤ 2 ^ 32 → (State.construct initEip initSp image).Inv

/-- Every step keeps the invariant: memory canonical and of an allowed size, and a phase that fits the state. -/
def Obligations.StepKeepsTheInvariant : Prop :=
  ∀ s t : State, s.Inv → step s = .next t → t.Inv

/-- Every run keeps the invariant, fatal errors included: a Faulted state shows the error's cause. -/
def Obligations.RunKeepsTheInvariant : Prop :=
  ∀ (n : Nat) (s : State), s.Inv → (runFor n s).Inv

/-! ### Runs and outputs -/

/-- Every read of address `a` at any point of a run returns `IMAGE[a]`, through the halt or the fault; past the image it
is out of bounds. That the buffer is exactly the image is the spec's decision D1 (log 3). -/
def Obligations.EveryReadReturnsTheImage : Prop :=
  ∀ (initEip initSp : Word) (image : List Byte) (n a : Nat),
    (runFor n (State.construct initEip initSp image)).mem.byteAt a =
      match image[a]? with
      | some b => .ok b
      | none => .error (.outOfBounds a)

/-- R13. A load-immediate writes exactly the register its opcode selects and reads none; the jump neither reads nor writes
one; a register holds its value until a load-immediate that names it; and no register value influences `eip`, memory, a fault or whether a run halts: from two states that differ in
registers only, both runs go the same way, and each register is at every point either the same in both runs or still the
value each run began with. -/
def Obligations.RegisterValuesInfluenceNothing : Prop :=
  (∀ (r : Fin 8) (v : Word) (s : State), ∃ t, exec (Instr.mov r v) s = .next t ∧ t.reg r = v ∧
    ∀ j, j ≠ r → t.reg j = s.reg j) ∧
  (∀ (d : Int) (s : State), ∃ t, exec (.jmpRel8 d) s = .next t ∧ ∀ j, t.reg j = s.reg j) ∧
  (∀ (s : State) (j : Fin 8), (advance s).reg j = s.reg j ∨
    ∃ v, fetch s = .ok (Instr.mov j v) ∧ (advance s).reg j = v) ∧
  ∀ (n : Nat) (s s' : State), s.eip = s'.eip → s.mem = s'.mem → s.phase = s'.phase →
    (runFor n s).eip = (runFor n s').eip ∧ (runFor n s).mem = (runFor n s').mem ∧
    (runFor n s).phase = (runFor n s').phase ∧
    ∀ j, (runFor n s).reg j = (runFor n s').reg j ∨
      ((runFor n s).reg j = s.reg j ∧ (runFor n s').reg j = s'.reg j)

/-- R138. `INIT_SP` has no effect on execution: runs that differ in it agree in everything but register 4, which is in each
run its own `INIT_SP` still, or has been overwritten with the same value in both (`eip`, phase, memory and the other seven
registers are the same at every point); the termination output gives `INIT_SP`
back unless a `MOV r4, imm32` has been executed. -/
def Obligations.InitSpHasNoEffectOnExecution : Prop :=
  ∀ (initEip sp sp' : Word) (image : List Byte) (n : Nat),
    (runFor n (State.construct initEip sp image)).eip = (runFor n (State.construct initEip sp' image)).eip ∧
    (runFor n (State.construct initEip sp image)).phase = (runFor n (State.construct initEip sp' image)).phase ∧
    (runFor n (State.construct initEip sp image)).mem = (runFor n (State.construct initEip sp' image)).mem ∧
    (∀ j, j ≠ 4 → (runFor n (State.construct initEip sp image)).reg j =
      (runFor n (State.construct initEip sp' image)).reg j) ∧
    ((runFor n (State.construct initEip sp image)).reg 4 = (runFor n (State.construct initEip sp' image)).reg 4 ∨
      ((runFor n (State.construct initEip sp image)).reg 4 = sp ∧
        (runFor n (State.construct initEip sp' image)).reg 4 = sp')) ∧
    ((∀ k, k < n → (runFor k (State.construct initEip sp image)).phase = .running →
        ∀ v, fetch (runFor k (State.construct initEip sp image)) ≠ .ok (Instr.mov 4 v)) →
      ∀ o, (runFor n (State.construct initEip sp image)).output = some o → o.regs[4] = sp)

/-- R77. When, and only when, the phase is Halted, the nine state fields are exposed, and `eip` is then 0; after a fatal
error no state is exposed; the memory buffer equals the image. -/
def Obligations.OutputIsTheNineFieldsOfAHaltedRun : Prop :=
  ∀ (initEip initSp : Word) (image : List Byte) (n : Nat),
    let s := runFor n (State.construct initEip initSp image)
    (s.phase = .halted → s.output = some { regs := s.regs, eip := s.eip } ∧ s.eip = 0#32) ∧
    (s.phase ≠ .halted → s.output = none) ∧
    (∀ f, s.phase = .faulted f → s.output = none ∧ s.faultSignal = some f) ∧
    s.mem = Memory.ofImage image

/-- The fault signal of a state that meets the invariant: never a register-index error; a decode error has code 1 and
carries the undefined byte at `eip`; an out-of-bounds error has code 3 and carries an address from `MEM_SIZE` to
`2^32 + 3`; code 0 means no error. The codes are the spec's decision D4 (log 6). -/
def Obligations.FaultSignalCarriesItsCause : Prop :=
  ∀ s : State, s.Inv →
    (s.causeCode = 0 ↔ s.faultSignal = none) ∧
    ∀ f, s.faultSignal = some f →
      (∃ op, f = .decodeError op ∧ s.causeCode = 1 ∧ f.info = op.toNat ∧ s.mem.byteAt s.eip.toNat = .ok op ∧
        decodeOpcode op = .undefined op) ∨
      (∃ a, f = .outOfBounds a ∧ s.causeCode = 3 ∧ f.info = a ∧ s.mem.size ≤ a ∧ a ≤ 2 ^ 32 + 3)

/-- Halted and Faulted are absorbing: no step is defined from them, and the loop leaves them for good. -/
def Obligations.EndedRunsStayEnded : Prop :=
  ∀ (s : State) (m n : Nat), (runFor m s).phase ≠ .running →
    step (runFor m s) = .refused .runEnded ∧ runFor (m + n) s = runFor m s

/-- A run has exactly one of three fates: it reaches Halted, it reaches Faulted, or it goes on for ever. -/
def Obligations.RunHasExactlyOneFate : Prop :=
  ∀ s : State,
    (EndsNormally s ∨ EndsInFault s ∨ RunsForever s) ∧ ¬(EndsNormally s ∧ EndsInFault s) ∧
    ¬(EndsNormally s ∧ RunsForever s) ∧ ¬(EndsInFault s ∧ RunsForever s)

/-- The host's runner and the spec's loop agree: where `k` steps of the host complete, they are `k` turns of the loop; where
they stop at a fault, the loop ends in that fault; where they are refused, it is as `runEnded` and the loop had ended. That a step after the end is refused is the model's
choice (DESIGN CHOICE, log 11). -/
def Obligations.HostRunnerAgreesWithTheLoop : Prop :=
  ∀ (k : Nat) (s : State),
    (∀ t : State, Sys2Proof.core.run k s = .next t → runFor k s = t) ∧
    (∀ f : Fault, Sys2Proof.core.run k s = .fault f → (runFor k s).phase = .faulted f) ∧
    (∀ r : Refusal, Sys2Proof.core.run k s = .refused r → r = .runEnded ∧ (runFor k s).phase ≠ .running)

/-- A jump to itself at an address other than 0 never ends; at address 0 it halts after one step. That such a run has no
end is the spec's decision D13 (log 19). -/
def Obligations.JumpToItselfNeverEndsExceptAtZero : Prop :=
  ∀ s : State, s.phase = .running → s.mem.holds s.eip.toNat [0xEB#8, 0xFE#8] →
    (s.eip ≠ 0#32 → step s = .next s ∧ RunsForever s) ∧ (s.eip = 0#32 → (runFor 1 s).phase = .halted)

/-! ### The host's loading and the assembler -/

/-- Placing a table word where the machine fetches makes the next step run exactly the instruction the decoder reads from
it, and keeps the memory canonical. The placing is the model's own (log 2, log 15). -/
def Obligations.FetchWordRunsItsInstruction : Prop :=
  ∀ (s : State) (nbits w : Nat) (i : Instr), s.mem.wf = true → decodeTableWord nbits w = some i →
    s.eip.toNat + i.length ≤ 2 ^ 32 →
    (s.withFetchWord nbits w).mem.wf = true ∧
    ∃ t, exec i (s.withFetchWord nbits w) = .next t ∧ step (s.withFetchWord nbits w) = .next (haltTest t)

/-- A `MOV` line is accepted exactly for a register `0 .. 7` and a number in `-2^31 .. 2^32 - 1`, assembles to its five
bytes, and a negative number `-n` stands for `2^32 - n`. The syntax is the spec's decision D9. -/
def Obligations.MovLineAssembles : Prop :=
  ∀ (p i : Nat) (n : Int),
    ((AsmLine.mov i n).assemble p ≠ none ↔ i < 8 ∧ -(2 ^ 31) ≤ n ∧ n < 2 ^ 32) ∧
    ∀ bs, (AsmLine.mov i n).assemble p = some bs → ∃ (r : Fin 8) (v : Word), (r : Nat) = i ∧
      decode bs = .ok (Instr.mov r v, []) ∧ bs.length = 5 ∧ (v.toNat : Int) = if n < 0 then 2 ^ 32 + n else n

/-- A `JMP @t` line placed at `p` is accepted exactly when `t - (p + 2)` is a displacement, and its jump, executed at `p`,
goes to `t`. The syntax is the spec's decision D9. -/
def Obligations.JumpLineGoesToItsTarget : Prop :=
  ∀ (s : State) (t : Word),
    ((AsmLine.jmpTo t.toNat).assemble s.eip.toNat ≠ none ↔
      -128 ≤ (t.toNat : Int) - (s.eip.toNat + 2) ∧ (t.toNat : Int) - (s.eip.toNat + 2) ≤ 127) ∧
    ∀ bs, (AsmLine.jmpTo t.toNat).assemble s.eip.toNat = some bs →
      ∃ d u, decode bs = .ok (.jmpRel8 d, []) ∧ exec (.jmpRel8 d) s = .next u ∧ u.eip = t

/-- The spec's examples of assembler text: `MOV r7, 0x2A`, and at address 5 `JMP @0` and `JMP -7`. -/
def Obligations.AssemblerTextExamples : Prop :=
  assembleText 0 "MOV r7, 0x2A".toList = some [0xBF#8, 0x2A#8, 0x00#8, 0x00#8, 0x00#8] ∧
  assembleText 5 "JMP @0".toList = some [0xEB#8, 0xF9#8] ∧
  assembleText 5 "JMP -7".toList = some [0xEB#8, 0xF9#8]
end

