-- ==== Sys2Proof/Laws/Decode.lean ====
section
/-! SUPPORT. The laws of the decoder: what a read of several bytes answers, what an opcode byte decodes to, and what
decoding from any three read functions can do. -/

namespace Sys2Proof

/-! ### Reading several bytes -/

/-- One byte read as an unsigned value is that byte. -/
theorem readUnsigned_one {ε : Type} (src : Nat → Except ε Byte) (a : Nat) : readUnsigned src a 1 = src a := by
  unfold readUnsigned readBytes readBytes
  cases h : src a with
  | error e => rfl
  | ok b => simp [littleEndian]

/-- Four bytes read as an unsigned value: the first error in ascending order, or the little-endian sum. -/
theorem readUnsigned_four {ε : Type} {src : Nat → Except ε Byte} {a : Nat} {b0 b1 b2 b3 : Byte} (h0 : src a = .ok b0)
    (h1 : src (a + 1) = .ok b1) (h2 : src (a + 2) = .ok b2) (h3 : src (a + 3) = .ok b3) :
    readUnsigned src a 4 = .ok (BitVec.ofNat 32 (littleEndian [b0, b1, b2, b3])) := by
  simp [readUnsigned, readBytes, h0, h1, h2, h3]

/-- If the first bytes are there and the next one is an error, the read is that error. -/
theorem readBytes_error {ε : Type} {src : Nat → Except ε Byte} {e : ε} :
    ∀ (n k a : Nat), k < n → (∀ j < k, ∃ b, src (a + j) = .ok b) → src (a + k) = .error e →
      readBytes src a n = .error e
  | n + 1, 0, a, _, _, he => by
    have he' : src a = .error e := by simpa using he
    simp [readBytes, he']
  | n + 1, k + 1, a, hk, hok, he => by
    obtain ⟨b, hb⟩ := hok 0 (Nat.succ_pos k)
    have hb' : src a = .ok b := by simpa using hb
    have ih := readBytes_error n k (a + 1) (by omega)
      (fun j hj => by simpa [Nat.add_assoc, Nat.add_comm 1] using hok (j + 1) (by omega))
      (by simpa [Nat.add_assoc, Nat.add_comm 1] using he)
    simp [readBytes, hb', ih]

/-- The same for the assembled value. -/
theorem readUnsigned_error {ε : Type} {src : Nat → Except ε Byte} {e : ε} (n k a : Nat) (hk : k < n)
    (hok : ∀ j < k, ∃ b, src (a + j) = .ok b) (he : src (a + k) = .error e) : readUnsigned src a n = .error e := by
  simp [readUnsigned, readBytes_error n k a hk hok he]

/-- A read that succeeds found every byte, and answers them in order. -/
theorem readBytes_ok {ε : Type} {src : Nat → Except ε Byte} :
    ∀ (n a : Nat) {bs : List Byte}, readBytes src a n = .ok bs →
      bs.length = n ∧ ∀ k b, bs[k]? = some b → src (a + k) = .ok b
  | 0, a, bs, h => by
    have : bs = [] := by simpa [readBytes] using h.symm
    subst this; simp
  | n + 1, a, bs, h => by
    unfold readBytes at h
    split at h
    · cases h
    · next b hb =>
      split at h
      · cases h
      · next cs hcs =>
        cases h
        obtain ⟨hl, hk⟩ := readBytes_ok n (a + 1) hcs
        refine ⟨by simp [hl], fun k c hc => ?_⟩
        cases k with
        | zero => have : b = c := by simpa using hc
                  subst this; simpa using hb
        | succ k => have := hk k c (by simpa using hc)
                    simpa [Nat.add_assoc, Nat.add_comm 1] using this

/-! ### The opcode byte -/

/-- A load-immediate opcode is `0xB8 + i` for a register index below 8 (R52, R53). -/
theorem decodeOpcode_loadImm : ∀ {op : Byte} {i : Nat}, decodeOpcode op = .loadImm i → i < 8 ∧ op = BitVec.ofNat 8 (0xB8 + i) := by
  have key : ∀ op : Byte, op &&& 0xF8#8 = 0xB8#8 → op.toNat - 0xB8 < 8 ∧ op = BitVec.ofNat 8 (0xB8 + (op.toNat - 0xB8)) := by decide
  intro op i h
  unfold decodeOpcode at h
  split at h
  · next hm => rw [Handler.loadImm.injEq] at h; subst h; exact key op hm
  · split at h <;> cases h

/-- The jump opcode is 0xEB. -/
theorem decodeOpcode_jmpShort {op : Byte} (h : decodeOpcode op = .jmpShort) : op = 0xEB#8 := by
  unfold decodeOpcode at h
  split at h
  · cases h
  · split at h
    · next he => exact he
    · cases h

/-- An undefined opcode is reported as itself. -/
theorem decodeOpcode_undefined {op op' : Byte} (h : decodeOpcode op = .undefined op') : op' = op := by
  unfold decodeOpcode at h
  split at h
  · cases h
  · split at h <;> cases h; rfl

/-! ### The decoder -/

/-- Everything decoding can do, by the result of each read in the order of R78. -/
theorem decodeWith_cases {ε : Type} {rb : Nat → Except ε Byte} {rs : Nat → Except ε Int} {rd : Nat → Except ε Word}
    {nh : Byte → ε} {bi : Nat → ε} {r : Except ε Instr} (h : decodeWith rb rs rd nh bi = r) :
    (∃ e, rb 0 = .error e ∧ r = .error e) ∨
    (∃ op, rb 0 = .ok op ∧
      ((∃ i v, ∃ hi : i < 8, decodeOpcode op = .loadImm i ∧ rd 1 = .ok v ∧ r = .ok (Instr.mov ⟨i, hi⟩ v)) ∨
       (∃ i e, i < 8 ∧ decodeOpcode op = .loadImm i ∧ rd 1 = .error e ∧ r = .error e) ∨
       (∃ d, decodeOpcode op = .jmpShort ∧ rs 1 = .ok d ∧ r = .ok (.jmpRel8 d)) ∨
       (∃ e, decodeOpcode op = .jmpShort ∧ rs 1 = .error e ∧ r = .error e) ∨
       (decodeOpcode op = .undefined op ∧ r = .error (nh op)))) := by
  subst h
  unfold decodeWith
  cases hb : rb 0 with
  | error e => exact .inl ⟨e, rfl, rfl⟩
  | ok op =>
    refine .inr ⟨op, rfl, ?_⟩
    cases hd : decodeOpcode op with
    | loadImm i =>
      have hi := (decodeOpcode_loadImm hd).1
      cases hr : rd 1 with
      | error e => exact .inr (.inl ⟨i, e, hi, rfl, rfl, by simp [hd, hi]⟩)
      | ok v => exact .inl ⟨i, v, hi, rfl, rfl, by simp [hd, hi]⟩
    | jmpShort =>
      cases hr : rs 1 with
      | error e => exact .inr (.inr (.inr (.inl ⟨e, rfl, rfl, by simp [hd]⟩)))
      | ok d => exact .inr (.inr (.inl ⟨d, rfl, rfl, by simp [hd]⟩))
    | undefined op' =>
      have := decodeOpcode_undefined hd
      subst this
      exact .inr (.inr (.inr (.inr ⟨rfl, by simp [hd]⟩)))

/-- A sign-extended byte is between -128 and 127 (R39). -/
theorem signExtendByte_range (b : Byte) : -128 ≤ signExtendByte b ∧ signExtendByte b ≤ 127 := by
  have := b.isLt
  unfold signExtendByte
  split <;> omega

/-- Sign extension undoes taking the byte of a displacement. -/
theorem signExtendByte_ofInt {d : Int} (h1 : -128 ≤ d) (h2 : d ≤ 127) : signExtendByte (BitVec.ofInt 8 d) = d := by
  have hn : (BitVec.ofInt 8 d).toNat = (d % 256).toNat := by simp [BitVec.toNat_ofInt]
  unfold signExtendByte
  rw [hn]
  split <;> omega

/-- Taking the byte undoes sign extension. -/
theorem ofInt_signExtendByte (b : Byte) : BitVec.ofInt 8 (signExtendByte b) = b := by
  have hb := b.isLt
  apply BitVec.eq_of_toNat_eq
  rw [BitVec.toNat_ofInt]
  unfold signExtendByte
  split <;> omega

/-- The little-endian value of the four bytes of an immediate is the immediate (R54). -/
theorem littleEndian_immediateBytes (v : Word) : BitVec.ofNat 32 (littleEndian (immediateBytes v)) = v := by
  have hv := v.isLt
  apply BitVec.eq_of_toNat_eq
  simp only [immediateBytes, littleEndian, BitVec.extractLsb'_toNat, BitVec.toNat_ofNat, Nat.shiftRight_eq_div_pow]
  omega

/-- Four bytes are the bytes of their little-endian value. -/
theorem immediateBytes_littleEndian (b0 b1 b2 b3 : Byte) :
    immediateBytes (BitVec.ofNat 32 (littleEndian [b0, b1, b2, b3])) = [b0, b1, b2, b3] := by
  have h0 := b0.isLt; have h1 := b1.isLt; have h2 := b2.isLt; have h3 := b3.isLt
  simp only [immediateBytes, List.cons.injEq, and_true]
  refine ⟨?_, ?_, ?_, ?_⟩ <;> apply BitVec.eq_of_toNat_eq <;>
    simp only [littleEndian, BitVec.extractLsb'_toNat, BitVec.toNat_ofNat, Nat.shiftRight_eq_div_pow] <;> omega

/-- The bytes of `MOV r<i>, imm32`: the opcode `0xB8 + i` and the immediate (R61). -/
theorem encode_mov (i : Fin 8) (v : Word) : encode (Instr.mov i v) = BitVec.ofNat 8 (0xB8 + i) :: immediateBytes v := by
  fin_cases i <;> rfl

/-- Every load-immediate is well-formed. -/
theorem mov_wf (i : Fin 8) (v : Word) : (Instr.mov i v).wf = true := by fin_cases i <;> rfl

/-- Every load-immediate is five bytes long (R51). -/
theorem mov_length (i : Fin 8) (v : Word) : (Instr.mov i v).length = 5 := by fin_cases i <;> rfl

end Sys2Proof
end

