-- ==== Sys2Proof/Laws/Memory.lean ====
section
/-! SUPPORT. The laws of the memory buffer: read after placing, an image read back, and that every operation keeps the
canonical form. -/

namespace Sys2Proof.Machine

/-! ### Canonical cells -/

/-- A list canonical from `lo` on is canonical from any lower bound on, and below any higher one. -/
theorem cellsWf_mono {lo lo' hi hi' : Nat} (hlo : lo' ≤ lo) (hhi : hi ≤ hi') :
    ∀ {cs : List Host.Cell}, cellsWf lo hi cs = true → cellsWf lo' hi' cs = true
  | [], _ => rfl
  | (k, b) :: cs, h => by
    simp only [cellsWf, Bool.and_eq_true, decide_eq_true_eq] at h ⊢
    exact ⟨⟨⟨by omega, by omega⟩, h.1.2⟩, cellsWf_mono (Nat.le_refl _) hhi h.2⟩

/-- Below its lower bound a canonical list holds nothing. -/
theorem cellAt_of_lt {lo hi : Nat} :
    ∀ {cs : List Host.Cell} {a : Nat}, cellsWf lo hi cs = true → a < lo → cellAt cs a = Memory.unlisted
  | [], _, _, _ => rfl
  | (k, b) :: cs, a, h, ha => by
    simp only [cellsWf, Bool.and_eq_true, decide_eq_true_eq] at h
    have hk : k ≠ a := by omega
    simp only [cellAt, hk, if_false]
    exact cellAt_of_lt h.2 (by omega)

/-! ### Placing -/

/-- Read after placing: the byte placed at its address, and every other address as before. -/
theorem cellAt_placeCell {hi : Nat} :
    ∀ {lo : Nat} {cs : List Host.Cell} (a : Nat) (b : Byte) (x : Nat), cellsWf lo hi cs = true →
      cellAt (placeCell cs a b) x = if a = x then b else cellAt cs x
  | _, [], a, b, x, _ => by
    unfold placeCell
    split
    · next hb => subst hb; split <;> rfl
    · rfl
  | _, (k, c) :: cs, a, b, x, h => by
    simp only [cellsWf, Bool.and_eq_true, decide_eq_true_eq] at h
    unfold placeCell
    split
    · next hak =>
      split
      · next hb =>
        by_cases hx : a = x
        · subst hx hb
          have hk : k ≠ a := by omega
          simp only [cellAt, hk, if_false, if_true]
          exact cellAt_of_lt h.2 (by omega)
        · simp [hx]
      · rfl
    · split
      · next hak =>
        subst hak
        split
        · next hb =>
          by_cases hx : a = x
          · subst hx hb; simpa using cellAt_of_lt h.2 (Nat.lt_succ_self a)
          · simp [cellAt, hx]
        · by_cases hx : a = x <;> simp [cellAt, hx]
      · next hak =>
        have ih := cellAt_placeCell a b x h.2
        by_cases hk : k = x
        · have hx : a ≠ x := by omega
          simp [cellAt, hk, hx]
        · simp [cellAt, hk, ih]

/-- Placing a byte keeps the cells canonical. -/
theorem cellsWf_placeCell {hi hi' : Nat} (hhi : hi ≤ hi') :
    ∀ {lo : Nat} {cs : List Host.Cell} (a : Nat) (b : Byte), cellsWf lo hi cs = true → lo ≤ a → a < hi' →
      cellsWf lo hi' (placeCell cs a b) = true
  | _, [], a, b, _, hlo, ha => by
    unfold placeCell
    split
    · rfl
    · next hb => simp [cellsWf, hlo, ha, hb]
  | _, (k, c) :: cs, a, b, h, hlo, ha => by
    have h' := cellsWf_mono (Nat.le_refl _) hhi h
    simp only [cellsWf, Bool.and_eq_true, decide_eq_true_eq] at h h'
    unfold placeCell
    split
    · next hak =>
      split
      · simp only [cellsWf, Bool.and_eq_true, decide_eq_true_eq]; exact h'
      · next hb =>
        simp only [cellsWf, Bool.and_eq_true, decide_eq_true_eq]
        exact ⟨⟨⟨hlo, ha⟩, hb⟩, ⟨⟨⟨by omega, h'.1.1.2⟩, h'.1.2⟩, h'.2⟩⟩
    · split
      · next hak =>
        subst hak
        split
        · exact cellsWf_mono (by omega) (Nat.le_refl _) h'.2
        · next hb =>
          simp only [cellsWf, Bool.and_eq_true, decide_eq_true_eq]
          exact ⟨⟨⟨hlo, ha⟩, hb⟩, h'.2⟩
      · next hak hne =>
        simp only [cellsWf, Bool.and_eq_true, decide_eq_true_eq]
        exact ⟨⟨⟨h'.1.1.1, h'.1.1.2⟩, h'.1.2⟩, cellsWf_placeCell hhi a b h.2 (by omega) ha⟩

/-- `Memory.place` keeps the canonical form. -/
theorem Memory.place_wf {m : Memory} (a : Nat) (b : Byte) (h : m.wf = true) : (m.place a b).wf = true := by
  unfold Memory.place
  split
  · next ha =>
    simp only [Memory.wf, Bool.and_eq_true, decide_eq_true_eq] at h ⊢
    exact ⟨by omega, cellsWf_placeCell (by omega) a b h.2 (Nat.zero_le _) (by omega)⟩
  · exact h

/-- `Memory.placeAll` keeps the canonical form. -/
theorem Memory.placeAll_wf : ∀ {m : Memory} (a : Nat) (bs : List Byte), m.wf = true → (m.placeAll a bs).wf = true
  | _, _, [], h => h
  | _, a, b :: bs, h => Memory.placeAll_wf (a + 1) bs (Memory.place_wf a b h)

/-- What an address holds after a byte has been placed: the byte at its own address, and at every other address of the
buffer what was there; an address newly inside the buffer reads as the unlisted byte. -/
theorem Memory.get_place {m : Memory} {a : Nat} (b : Byte) (x : Nat) (h : m.wf = true) (ha : a < Config.maxMemSize) :
    (m.place a b).get x =
      if a = x then some b else if x < max m.size (a + 1) then some (cellAt m.cells x) else none := by
  simp only [Memory.wf, Bool.and_eq_true, decide_eq_true_eq] at h
  simp only [Memory.place, ha, if_true, Memory.get, cellAt_placeCell a b x h.2]
  by_cases hx : a = x
  · subst hx; simp
  · simp [hx]

/-- An address that is neither placed to nor newly inside the buffer reads as before. -/
theorem Memory.get_place_other {m : Memory} {a x : Nat} (b : Byte) (h : m.wf = true) (hax : a ≠ x) (hx : x < m.size) :
    (m.place a b).get x = m.get x := by
  by_cases ha : a < Config.maxMemSize
  · rw [Memory.get_place b x h ha, if_neg hax, if_pos (by omega), Memory.get, if_pos hx]
  · simp [Memory.place, ha]

/-! ### Images -/

/-- The cells of an image are canonical. -/
theorem imageCells_wf : ∀ (a : Nat) (img : List Byte), cellsWf a (a + img.length) (imageCells a img) = true
  | _, [] => rfl
  | a, b :: bs => by
    have ih := imageCells_wf (a + 1) bs
    have hl : a + 1 + bs.length = a + (b :: bs).length := by simp; omega
    rw [hl] at ih
    unfold imageCells
    split
    · exact cellsWf_mono (Nat.le_succ a) (Nat.le_refl _) ih
    · next hb =>
      simp only [cellsWf, Bool.and_eq_true, decide_eq_true_eq]
      exact ⟨⟨⟨Nat.le_refl a, by simp⟩, hb⟩, ih⟩

/-- An image read back: byte `k` of the image is at address `a + k`. -/
theorem cellAt_imageCells : ∀ (a : Nat) (img : List Byte) (k : Nat) (b : Byte), img[k]? = some b →
    cellAt (imageCells a img) (a + k) = b
  | _, [], k, b, h => by simp at h
  | a, c :: cs, 0, b, h => by
    have hc : c = b := by simpa using h
    subst hc
    unfold imageCells
    split
    · next hb => subst hb; exact cellAt_of_lt (imageCells_wf (a + 1) cs) (by omega)
    · simp [cellAt]
  | a, c :: cs, k + 1, b, h => by
    have ih := cellAt_imageCells (a + 1) cs k b (by simpa using h)
    have hk : a + 1 + k = a + (k + 1) := by omega
    rw [hk] at ih
    unfold imageCells
    split
    · exact ih
    · have hne : a ≠ a + (k + 1) := by omega
      simpa [cellAt, hne] using ih

/-- `Memory.ofImage` gives the canonical form, for an image of a size the spec allows. -/
theorem Memory.ofImage_wf {img : List Byte} (h : img.length ≤ Config.maxMemSize) : (Memory.ofImage img).wf = true := by
  have hc := imageCells_wf 0 img
  rw [Nat.zero_add] at hc
  simp [Memory.wf, Memory.ofImage, h, hc]

/-- What an address of an image's buffer holds is what the image has there. -/
theorem Memory.get_ofImage (img : List Byte) (a : Nat) : (Memory.ofImage img).get a = img[a]? := by
  unfold Memory.get Memory.ofImage
  by_cases h : a < img.length
  · have := cellAt_imageCells 0 img a img[a] (by simp [h])
    simp only [Nat.zero_add] at this
    simp [h, this]
  · simp [h]

/-! ### The bounds-checked byte -/

/-- A byte inside the buffer is read. -/
theorem Memory.byteAt_of_lt {m : Memory} {a : Nat} (h : a < m.size) : m.byteAt a = .ok (cellAt m.cells a) := by
  simp [Memory.byteAt, Memory.get, h]

/-- A byte outside the buffer is `OutOfBounds` at its own address (R36, R37). -/
theorem Memory.byteAt_of_le {m : Memory} {a : Nat} (h : m.size ≤ a) : m.byteAt a = .error (.outOfBounds a) := by
  simp [Memory.byteAt, Memory.get, Nat.not_lt.mpr h]

/-- Only an address inside the buffer is read. -/
theorem Memory.lt_of_byteAt {m : Memory} {a : Nat} {b : Byte} (h : m.byteAt a = .ok b) : a < m.size := by
  by_contra hn
  rw [Memory.byteAt_of_le (Nat.not_lt.mp hn)] at h
  cases h

end Sys2Proof.Machine
end

