-- ==== Sys2Proof/Laws/State.lean ====
section
/-! SUPPORT. One lemma per field per update, so that no proof unfolds a record update, and the two laws of the register
file. -/

namespace Sys2Proof.Machine

/-! ### `setReg` -/

@[simp] theorem State.setReg_regs (s : State) (i : Fin 8) (v : Word) : (s.setReg i v).regs = s.regs.set i v := rfl
@[simp] theorem State.setReg_eip (s : State) (i : Fin 8) (v : Word) : (s.setReg i v).eip = s.eip := rfl
@[simp] theorem State.setReg_mem (s : State) (i : Fin 8) (v : Word) : (s.setReg i v).mem = s.mem := rfl
@[simp] theorem State.setReg_phase (s : State) (i : Fin 8) (v : Word) : (s.setReg i v).phase = s.phase := rfl

/-- Reading the register just written gives the value written. -/
theorem State.reg_setReg_same (s : State) (i : Fin 8) (v : Word) : (s.setReg i v).reg i = v := by
  simp [State.reg]

/-- Writing a register leaves every other register alone. -/
theorem State.reg_setReg_other (s : State) (i j : Fin 8) (v : Word) (h : j ≠ i) : (s.setReg i v).reg j = s.reg j := by
  have hne : (i : Nat) ≠ j := fun e => h (Fin.ext e.symm)
  simp [State.reg, hne]

/-! ### `setEip` -/

@[simp] theorem State.setEip_regs (s : State) (t : Int) : (s.setEip t).regs = s.regs := rfl
@[simp] theorem State.setEip_eip (s : State) (t : Int) : (s.setEip t).eip = BitVec.ofInt 32 t := rfl
@[simp] theorem State.setEip_mem (s : State) (t : Int) : (s.setEip t).mem = s.mem := rfl
@[simp] theorem State.setEip_phase (s : State) (t : Int) : (s.setEip t).phase = s.phase := rfl
@[simp] theorem State.setEip_reg (s : State) (t : Int) (j : Fin 8) : (s.setEip t).reg j = s.reg j := rfl

/-! ### `setPhase` and `raise` -/

@[simp] theorem State.setPhase_regs (s : State) (p : Phase) : (s.setPhase p).regs = s.regs := rfl
@[simp] theorem State.setPhase_eip (s : State) (p : Phase) : (s.setPhase p).eip = s.eip := rfl
@[simp] theorem State.setPhase_mem (s : State) (p : Phase) : (s.setPhase p).mem = s.mem := rfl
@[simp] theorem State.setPhase_phase (s : State) (p : Phase) : (s.setPhase p).phase = p := rfl
@[simp] theorem State.setPhase_reg (s : State) (p : Phase) (j : Fin 8) : (s.setPhase p).reg j = s.reg j := rfl
@[simp] theorem State.raise_regs (s : State) (f : Fault) : (s.raise f).regs = s.regs := rfl
@[simp] theorem State.raise_eip (s : State) (f : Fault) : (s.raise f).eip = s.eip := rfl
@[simp] theorem State.raise_mem (s : State) (f : Fault) : (s.raise f).mem = s.mem := rfl
@[simp] theorem State.raise_phase (s : State) (f : Fault) : (s.raise f).phase = .faulted f := rfl

/-! ### `withFetchWord` -/

@[simp] theorem State.withFetchWord_regs (s : State) (n w : Nat) : (s.withFetchWord n w).regs = s.regs := rfl
@[simp] theorem State.withFetchWord_eip (s : State) (n w : Nat) : (s.withFetchWord n w).eip = s.eip := rfl
@[simp] theorem State.withFetchWord_mem (s : State) (n w : Nat) :
    (s.withFetchWord n w).mem = s.mem.placeAll s.eip.toNat (wordBytes n w) := rfl
@[simp] theorem State.withFetchWord_phase (s : State) (n w : Nat) : (s.withFetchWord n w).phase = .running := rfl

/-! ### `construct` -/

@[simp] theorem State.construct_eip (e sp : Word) (img : List Byte) : (State.construct e sp img).eip = e := rfl
@[simp] theorem State.construct_mem (e sp : Word) (img : List Byte) :
    (State.construct e sp img).mem = Memory.ofImage img := rfl
@[simp] theorem State.construct_phase (e sp : Word) (img : List Byte) : (State.construct e sp img).phase = .running := rfl

/-! ### The halt test -/

/-- The halt test changes the phase at most. -/
@[simp] theorem haltTest_regs (s : State) : (haltTest s).regs = s.regs := by unfold haltTest; split <;> rfl
@[simp] theorem haltTest_eip (s : State) : (haltTest s).eip = s.eip := by unfold haltTest; split <;> rfl
@[simp] theorem haltTest_mem (s : State) : (haltTest s).mem = s.mem := by unfold haltTest; split <;> rfl
@[simp] theorem haltTest_reg (s : State) (j : Fin 8) : (haltTest s).reg j = s.reg j := by unfold haltTest; split <;> rfl

/-- The phase after the halt test (R75). -/
theorem haltTest_phase (s : State) : (haltTest s).phase = if s.eip = 0#32 then .halted else s.phase := by
  by_cases h : s.eip = 0#32 <;> simp [haltTest, haltCondition, Config.haltSentinel, h]

end Sys2Proof.Machine
end

