-- ==== Sys2Proof/Laws/Ops.lean ====
section
/-! SUPPORT. The reads of the operand decoder and the meanings of the instructions, each said once. -/

namespace Sys2Proof.Machine

/-- `ReadByte(off)` is the byte at `eip + off` (R38). -/
theorem readByte_eq (s : State) (off : Nat) : readByte s off = s.mem.byteAt (s.eip.toNat + off) :=
  readUnsigned_one _ _

/-- A read of `n` bytes that runs off the buffer reports the lowest address outside it (R36, D5). -/
theorem Memory.memRead_of_outside {m : Memory} {a n : Nat} (hn : 0 < n) (h : m.size < a + n) :
    m.memRead a n = .error (.outOfBounds (max a m.size)) := by
  have he : m.byteAt (a + (m.size - a)) = .error (.outOfBounds (max a m.size)) := by
    have hx : a + (m.size - a) = max a m.size := by omega
    rw [hx]
    exact Memory.byteAt_of_le (by omega)
  exact readUnsigned_error n (m.size - a) a (by omega) (fun j hj => ⟨_, Memory.byteAt_of_lt (by omega)⟩) he

/-- The bytes of an image stand in its buffer where they stand in the image. -/
theorem Memory.holds_ofImage (front bs : List Byte) : (Memory.ofImage (front ++ bs)).holds front.length bs := by
  intro k b hk
  have : (front ++ bs)[front.length + k]? = some b := by
    rw [List.getElem?_append_right (by omega)]; simpa using hk
  rw [Memory.byteAt, Memory.get_ofImage, this]

/-- What the meaning of any load-immediate does (R85). -/
theorem exec_mov (i : Fin 8) (v : Word) (s : State) :
    exec (Instr.mov i v) s = .next ((s.setReg i v).setEip ((s.eip.toNat : Int) + 5)) := by
  fin_cases i <;> rfl

/-- What the meaning of the jump does (R100). -/
theorem exec_jmp (d : Int) (s : State) : exec (.jmpRel8 d) s = .next (s.setEip (jumpTarget s.eip d)) := rfl

/-- Every instruction is a load-immediate or the jump. -/
theorem instr_cases (i : Instr) : (∃ r v, i = Instr.mov r v) ∨ ∃ d, i = .jmpRel8 d := by
  cases i with
  | movR0 v => exact .inl ⟨0, v, rfl⟩
  | movR1 v => exact .inl ⟨1, v, rfl⟩
  | movR2 v => exact .inl ⟨2, v, rfl⟩
  | movR3 v => exact .inl ⟨3, v, rfl⟩
  | movR4 v => exact .inl ⟨4, v, rfl⟩
  | movR5 v => exact .inl ⟨5, v, rfl⟩
  | movR6 v => exact .inl ⟨6, v, rfl⟩
  | movR7 v => exact .inl ⟨7, v, rfl⟩
  | jmpRel8 d => exact .inr ⟨d, rfl⟩

end Sys2Proof.Machine
end

