-- ==== Sys2Proof/Laws/PerInstr.lean ====
section
/-! SUPPORT. Statements about every instruction as syntax, one lemma per constructor. -/

namespace Sys2Proof.Laws.Encoding

/-- The encoding of an instruction is as long as the table says, and begins with a defined opcode (30_encoding.md R50 to
R52). -/
def Statement (i : Instr) : Prop :=
  (encode i).length = i.length ∧ ∃ op rest, encode i = op :: rest ∧ ∀ op', decodeOpcode op ≠ .undefined op'

theorem movR0 (v : Word) : Statement (.movR0 v) := ⟨rfl, _, _, rfl, nofun⟩
theorem movR1 (v : Word) : Statement (.movR1 v) := ⟨rfl, _, _, rfl, nofun⟩
theorem movR2 (v : Word) : Statement (.movR2 v) := ⟨rfl, _, _, rfl, nofun⟩
theorem movR3 (v : Word) : Statement (.movR3 v) := ⟨rfl, _, _, rfl, nofun⟩
theorem movR4 (v : Word) : Statement (.movR4 v) := ⟨rfl, _, _, rfl, nofun⟩
theorem movR5 (v : Word) : Statement (.movR5 v) := ⟨rfl, _, _, rfl, nofun⟩
theorem movR6 (v : Word) : Statement (.movR6 v) := ⟨rfl, _, _, rfl, nofun⟩
theorem movR7 (v : Word) : Statement (.movR7 v) := ⟨rfl, _, _, rfl, nofun⟩
theorem jmpRel8 (d : Int) : Statement (.jmpRel8 d) := ⟨rfl, _, _, rfl, nofun⟩

end Sys2Proof.Laws.Encoding
end

