-- ==== Sys2Proof/Laws/Step.lean ====
section
/-! SUPPORT. The step said once: everything it can answer, and what a turn of the loop does with it. -/

namespace Sys2Proof.Machine

/-- A Running state steps by fetching and running the instruction, and the halt test. -/
theorem step_of_running {s : State} (h : s.phase = .running) :
    step s = match fetch s with
      | .error f => .fault f
      | .ok i => afterHandler (exec i s) := by
  unfold step
  split
  · rfl
  · next h' => rw [h] at h'; cases h'
  · next h' => rw [h] at h'; cases h'

/-- An ended run has no step (R23). -/
theorem step_of_ended {s : State} (h : s.phase ≠ .running) : step s = .refused .runEnded := by
  cases hp : s.phase with
  | running => exact absurd hp h
  | halted => simp [step, hp]
  | faulted f => simp [step, hp]

/-- Everything a step can answer. A completed step is a load-immediate or a jump, followed by the halt test. -/
theorem step_cases {s : State} {o : Host.Outcome State Fault Refusal} (h : step s = o) :
    (s.phase = .running ∧ ∃ r v, fetch s = .ok (Instr.mov r v) ∧
      o = .next (haltTest ((s.setReg r v).setEip ((s.eip.toNat : Int) + 5)))) ∨
    (s.phase = .running ∧ ∃ d, fetch s = .ok (.jmpRel8 d) ∧ o = .next (haltTest (s.setEip (jumpTarget s.eip d)))) ∨
    (s.phase = .running ∧ ∃ f, fetch s = .error f ∧ o = .fault f) ∨
    (s.phase ≠ .running ∧ o = .refused .runEnded) := by
  by_cases hp : s.phase = .running
  · rw [step_of_running hp] at h
    cases hf : fetch s with
    | error f => exact .inr (.inr (.inl ⟨hp, f, rfl, by rw [hf] at h; exact h.symm⟩))
    | ok i =>
      rw [hf] at h
      obtain ⟨r, v, rfl⟩ | ⟨d, rfl⟩ := instr_cases i
      · exact .inl ⟨hp, r, v, rfl, by simpa [exec_mov, afterHandler] using h.symm⟩
      · exact .inr (.inl ⟨hp, d, rfl, by simpa [exec_jmp, afterHandler] using h.symm⟩)
  · exact .inr (.inr (.inr ⟨hp, by rw [step_of_ended hp] at h; exact h.symm⟩))

/-- The loop leaves an ended run as it is. -/
theorem advance_of_ended {s : State} (h : s.phase ≠ .running) : advance s = s := by
  simp [advance, step_of_ended h, settle]

/-- A turn of the loop that completes is the step's next state. -/
theorem advance_of_next {s t : State} (h : step s = .next t) : advance s = t := by simp [advance, h, settle]

/-- A turn of the loop that meets a fatal error takes it. -/
theorem advance_of_fault {s : State} {f : Fault} (h : step s = .fault f) : advance s = s.raise f := by
  simp [advance, h, settle]

/-- Runs compose. -/
theorem runFor_add (m n : Nat) (s : State) : runFor (m + n) s = runFor n (runFor m s) := by
  induction m generalizing s with
  | zero => simp [runFor]
  | succ m ih => rw [Nat.succ_add]; simp [runFor, ih]

/-- What every turn of the loop keeps, a run keeps. -/
theorem runFor_induction {P : State → Prop} (hstep : ∀ s, P s → P (advance s)) : ∀ (n : Nat) (s : State), P s → P (runFor n s)
  | 0, _, h => h
  | n + 1, s, h => runFor_induction hstep n (advance s) (hstep s h)

end Sys2Proof.Machine
end

