-- ==== Sys2Proof/Tests/Slice0.lean ====
section
/-! SUPPORT. The model's own tests. Expected results are the vectors of spec/95_test_vectors.md, named in each comment, and
each test is about one step; then, for every statement with hypotheses, a concrete case that meets them. -/

namespace Sys2Proof.Tests

open Sys2Proof Sys2Proof.Machine

/-! ### Helpers -/

/-- The state after construction from an image, with `INIT_SP = 0`. -/
def start (image : List Byte) (eip : Word) : State := State.construct eip 0#32 image

/-- A state whose buffer has `2^32` bytes, with the given bytes at `eip`. -/
def top (bs : List Byte) (eip : Word) : State :=
  { start [] eip with mem := Memory.placeAll { size := 4294967296, cells := [] } eip.toNat bs }

/-- The step completes in a state that passes a check. -/
def steps (s : State) (p : State → Bool) : Bool :=
  match step s with
  | .next t => p t
  | .fault _ => false
  | .refused _ => false

/-- The step stops at this fatal error. -/
def faults (s : State) (f : Fault) : Bool :=
  match step s with
  | .next _ => false
  | .fault g => g == f
  | .refused _ => false

/-- The bytes decode to this instruction, with nothing left over. -/
def decodesTo (bs : List Byte) (i : Instr) : Bool :=
  match decode bs with
  | .error _ => false
  | .ok (j, rest) => j == i && rest == []

/-- The bytes are refused for this reason. -/
def decodeFails (bs : List Byte) (f : DecodeFailure) : Bool :=
  match decode bs with
  | .error g => g == f
  | .ok _ => false

/-- A read answers this value. -/
def reads {α : Type} [DecidableEq α] (r : Except Fault α) (v : α) : Bool :=
  match r with
  | .ok x => decide (x = v)
  | .error _ => false

/-- A read is out of bounds at this address. -/
def readFails {α : Type} (r : Except Fault α) (a : Nat) : Bool :=
  match r with
  | .ok _ => false
  | .error f => f == .outOfBounds a

/-! ### WellFormed: an ill-formed term for each check (R55) -/

theorem test_wf_refuses_below : (Instr.jmpRel8 (-129)).wf = false := by decide
theorem test_wf_refuses_above : (Instr.jmpRel8 128).wf = false := by decide
theorem test_wf_accepts_bounds : (Instr.jmpRel8 (-128)).wf = true ∧ (Instr.jmpRel8 127).wf = true := by decide

/-! ### Decoding: every constructor, the opcode byte bit by bit from the table of R52, the operands as in M1 to M8 and J1 -/

theorem test_decode_mov_r0 : decodesTo [0b10111000#8, 0x01#8, 0x00#8, 0x00#8, 0x00#8] (.movR0 0x00000001#32) = true := by decide
theorem test_decode_mov_r1 : decodesTo [0b10111001#8, 0x78#8, 0x56#8, 0x34#8, 0x12#8] (.movR1 0x12345678#32) = true := by decide
theorem test_decode_mov_r2 : decodesTo [0b10111010#8, 0x00#8, 0x00#8, 0x00#8, 0x00#8] (.movR2 0#32) = true := by decide
theorem test_decode_mov_r3 : decodesTo [0b10111011#8, 0xFF#8, 0xFF#8, 0xFF#8, 0xFF#8] (.movR3 0xFFFFFFFF#32) = true := by decide
theorem test_decode_mov_r4 : decodesTo [0b10111100#8, 0x00#8, 0x7C#8, 0x00#8, 0x00#8] (.movR4 0x00007C00#32) = true := by decide
theorem test_decode_mov_r5 : decodesTo [0b10111101#8, 0x00#8, 0x00#8, 0x00#8, 0x80#8] (.movR5 0x80000000#32) = true := by decide
theorem test_decode_mov_r6 : decodesTo [0b10111110#8, 0x01#8, 0x02#8, 0x03#8, 0x04#8] (.movR6 0x04030201#32) = true := by decide
theorem test_decode_mov_r7 : decodesTo [0b10111111#8, 0x2A#8, 0x00#8, 0x00#8, 0x00#8] (.movR7 0x0000002A#32) = true := by decide
theorem test_decode_jmp : decodesTo [0b11101011#8, 0xF9#8] (.jmpRel8 (-7)) = true := by decide

/-- E1, E10, E11, E13 to E17: the neighbours and the named examples are undefined. -/
theorem test_decode_undefined : [0xB7#8, 0xC0#8, 0xEA#8, 0xEC#8, 0x00#8, 0x90#8, 0xFF#8, 0xE9#8, 0xE8#8, 0xC3#8, 0xF4#8, 0xCC#8,
    0x0F#8, 0x66#8].all (fun op => decodeFails [op, 0#8, 0#8, 0#8, 0#8] (.undefinedOpcode op)) = true := by decide

/-- Bytes that end too soon are refused at the first missing one. -/
theorem test_decode_truncated : decodeFails [] (.truncated 0) = true ∧ decodeFails [0xB8#8, 0x01#8, 0x00#8] (.truncated 3) = true ∧
    decodeFails [0xEB#8] (.truncated 1) = true := by decide

/-- The table's numbering: bit 0 is the least significant bit of the first byte. -/
theorem test_table_word : decodeTableWord 40 0x12345678B9 = some (.movR1 0x12345678#32) ∧
    decodeTableWord 16 0xF9EB = some (.jmpRel8 (-7)) ∧ decodeTableWord 8 0xBF = some (.movR7 0#32) ∧
    decodeTableWord 8 0x90 = none := by decide

/-! ### The operand decoder -/

/-- A1 to A8. -/
theorem test_sign_extension : [0x00#8, 0x01#8, 0x7F#8, 0x80#8, 0x81#8, 0xF9#8, 0xFE#8, 0xFF#8].map signExtendByte =
    [0, 1, 127, -128, -127, -7, -2, -1] := by decide

/-- A11, A12, A15, A16 (`eip = 0`, offset 1). -/
theorem test_double_word : reads (readDoubleWord (start [0#8, 0x78#8, 0x56#8, 0x34#8, 0x12#8] 0#32) 1) 0x12345678#32 = true ∧
    reads (readDoubleWord (start [0#8, 0x00#8, 0x00#8, 0x00#8, 0x80#8] 0#32) 1) 0x80000000#32 = true ∧
    reads (readDoubleWord (start [0#8, 0x0D#8, 0x00#8, 0x00#8, 0xF0#8] 0#32) 1) 0xF000000D#32 = true ∧
    reads (readDoubleWord (start [0#8, 0x01#8, 0x02#8, 0x03#8, 0x04#8] 0#32) 1) 0x04030201#32 = true := by decide

/-- A17 to A24. -/
theorem test_bounds : readFails (readByte (start [] 0#32) 0) 0 = true ∧ reads (readByte (start [7#8] 0#32) 0) 7#8 = true ∧
    readFails (readSignedByte (start [7#8] 0#32) 1) 1 = true ∧
    readFails (readDoubleWord (start [0#8, 1#8, 2#8, 3#8] 0#32) 1) 4 = true ∧
    readFails (readDoubleWord (start [0#8, 1#8, 2#8] 0#32) 1) 3 = true ∧
    readFails (readDoubleWord (start [0#8, 1#8] 0#32) 1) 2 = true ∧
    readFails (readDoubleWord (start [0#8] 0#32) 1) 1 = true := by decide

/-- A25, A26: no wrap to low memory. -/
theorem test_bounds_top : readFails (readByte (top [] 0xFFFFFFFF#32) 1) 0x100000000 = true ∧
    readFails (readDoubleWord (top [] 0xFFFFFFFC#32) 1) 0x100000000 = true := by decide

/-! ### Reset -/

/-- W13 and R24: `INIT_SP` is in register 4 and nowhere else. -/
theorem test_construct : (State.construct 7#32 0xAABBCCDD#32 [1#8, 0#8]).regs = #v[0, 0, 0, 0, 0xAABBCCDD, 0, 0, 0] ∧
    (State.construct 7#32 0xAABBCCDD#32 [1#8, 0#8]).mem.get 1 = some 0#8 ∧
    (State.construct 7#32 0xAABBCCDD#32 [1#8, 0#8]).mem.get 2 = none := by decide

/-- W1: the empty image faults at address 0; `eip = 0` at reset is no halt. -/
theorem test_reset_step : faults State.reset (.outOfBounds 0) = true := by decide

/-! ### Load-immediate, one step each -/

/-- M1. -/
theorem test_mov_r0 : steps (start [0xB8#8, 0x01#8, 0x00#8, 0x00#8, 0x00#8] 0#32) (fun t =>
    t.regs == #v[1, 0, 0, 0, 0, 0, 0, 0] && t.eip == 5#32 && t.phase == .running) = true := by decide

/-- M11: at 0xFFFFFFFB the successor wraps to 0 and the run halts. -/
theorem test_mov_r0_top : steps (top [0xB8#8, 0x07#8, 0x00#8, 0x00#8, 0x00#8] 0xFFFFFFFB#32) (fun t =>
    t.reg 0 == 7#32 && t.eip == 0#32 && t.phase == .halted) = true := by decide

/-- The example of R87, at p = 7. -/
theorem test_mov_r1 : steps (start ([0#8, 0#8, 0#8, 0#8, 0#8, 0#8, 0#8] ++ [0xB9#8, 0x78#8, 0x56#8, 0x34#8, 0x12#8]) 7#32)
    (fun t => t.regs == #v[0, 0x12345678, 0, 0, 0, 0, 0, 0] && t.eip == 12#32) = true := by decide

/-- M3, from a register that is not 0 (corner case 2 of R85). -/
theorem test_mov_r2 : steps ((start [0xBA#8, 0x00#8, 0x00#8, 0x00#8, 0x00#8] 0#32).setReg 2 5#32) (fun t =>
    t.reg 2 == 0#32 && t.eip == 5#32) = true := by decide

/-- M4. -/
theorem test_mov_r3 : steps (start [0xBB#8, 0xFF#8, 0xFF#8, 0xFF#8, 0xFF#8] 0#32) (fun t =>
    t.regs == #v[0, 0, 0, 0xFFFFFFFF, 0, 0, 0, 0] && t.eip == 5#32) = true := by decide

/-- M5: the stack pointer is written like any register. -/
theorem test_mov_r4 : steps (State.construct 0#32 0x1234#32 [0xBC#8, 0x00#8, 0x7C#8, 0x00#8, 0x00#8]) (fun t =>
    t.regs == #v[0, 0, 0, 0, 0x7C00, 0, 0, 0] && t.eip == 5#32) = true := by decide

/-- M6. -/
theorem test_mov_r5 : steps (start [0xBD#8, 0x00#8, 0x00#8, 0x00#8, 0x80#8] 0#32) (fun t =>
    t.regs == #v[0, 0, 0, 0, 0, 0x80000000, 0, 0] && t.eip == 5#32) = true := by decide

/-- M7. -/
theorem test_mov_r6 : steps (start [0xBE#8, 0x01#8, 0x02#8, 0x03#8, 0x04#8] 0#32) (fun t =>
    t.regs == #v[0, 0, 0, 0, 0, 0, 0x04030201, 0] && t.eip == 5#32) = true := by decide

/-- M8. -/
theorem test_mov_r7 : steps (start [0xBF#8, 0x2A#8, 0x00#8, 0x00#8, 0x00#8] 0#32) (fun t =>
    t.regs == #v[0, 0, 0, 0, 0, 0, 0, 0x2A] && t.eip == 5#32) = true := by decide

/-- M13 to M16: an operand that is not wholly in the buffer. -/
theorem test_mov_faults : faults (top [0xB8#8] 0xFFFFFFFC#32) (.outOfBounds 0x100000000) = true ∧
    faults (start [0xB8#8, 0x01#8, 0x00#8] 0#32) (.outOfBounds 3) = true ∧
    faults (start [0xB8#8, 0x01#8, 0x02#8, 0x03#8] 0#32) (.outOfBounds 4) = true ∧
    faults (start [0xB8#8] 0#32) (.outOfBounds 1) = true := by decide

/-! ### The jump, one step each -/

/-- J1: the jump of the document's scenario 2 halts and leaves register 7. -/
theorem test_jmp_halts : steps ((start [0xBF#8, 0x2A#8, 0x00#8, 0x00#8, 0x00#8, 0xEB#8, 0xF9#8] 5#32).setReg 7 0x2A#32) (fun t =>
    t.regs == #v[0, 0, 0, 0, 0, 0, 0, 0x2A] && t.eip == 0#32 && t.phase == .halted) = true := by decide

/-- J4, J5, J9: both boundary displacements, and the wrap below zero. -/
theorem test_jmp_boundaries : steps (start [0xEB#8, 0x7F#8] 0#32) (fun t => t.eip == 0x81#32 && t.phase == .running) = true ∧
    steps (start [0xEB#8, 0x80#8] 0#32) (fun t => t.eip == 0xFFFFFF82#32 && t.phase == .running) = true ∧
    steps (start [0xEB#8, 0xFD#8] 0#32) (fun t => t.eip == 0xFFFFFFFF#32 && t.phase == .running) = true := by decide

/-- J8, J13 to J16: at 0, past 2^31 and above the top. -/
theorem test_jmp_wraps : steps (start [0xEB#8, 0xFE#8] 0#32) (fun t => t.eip == 0#32 && t.phase == .halted) = true ∧
    steps (top [0xEB#8, 0x00#8] 0x7FFFFFFE#32) (fun t => t.eip == 0x80000000#32 && t.phase == .running) = true ∧
    steps (top [0xEB#8, 0x00#8] 0xFFFFFFFE#32) (fun t => t.eip == 0#32 && t.phase == .halted) = true ∧
    steps (top [0xEB#8, 0x01#8] 0xFFFFFFFE#32) (fun t => t.eip == 1#32 && t.phase == .running) = true ∧
    steps (top [0xEB#8, 0x7E#8] 0xFFFFFF80#32) (fun t => t.eip == 0#32 && t.phase == .halted) = true := by decide

/-- J17, J18. -/
theorem test_jmp_faults : faults (start [0xEB#8] 0#32) (.outOfBounds 1) = true ∧
    faults (top [0xEB#8] 0xFFFFFFFF#32) (.outOfBounds 0x100000000) = true := by decide

/-! ### Dispatch and faults -/

/-- W2, W4, and the second steps of W5 to W8. -/
theorem test_fault_order : faults (start [0xB8#8, 0x01#8, 0x00#8, 0x00#8, 0x00#8] 7#32) (.outOfBounds 7) = true ∧
    faults (start [0xEB#8, 0xFE#8] 0xFFFFFFFF#32) (.outOfBounds 0xFFFFFFFF) = true ∧
    faults (start [0xEB#8, 0x00#8, 0x90#8] 2#32) (.decodeError 0x90#8) = true ∧
    faults (start [0xEB#8, 0x00#8, 0xB8#8] 2#32) (.outOfBounds 3) = true ∧
    faults (start [0xEB#8, 0x00#8, 0xEB#8] 2#32) (.outOfBounds 3) = true ∧
    faults (start [0xB8#8, 0x01#8, 0x00#8, 0x00#8, 0x00#8, 0x00#8] 5#32) (.decodeError 0x00#8) = true := by decide

/-- S3: the fault is taken with nothing modified, and there is no output. -/
theorem test_fault_taken : advance (start [0x90#8] 0#32) = { start [0x90#8] 0#32 with phase := .faulted (.decodeError 0x90#8) } ∧
    (advance (start [0x90#8] 0#32)).output = none ∧ (advance (start [0x90#8] 0#32)).causeCode = 1 := by decide

/-- W11: the termination output. -/
theorem test_output : (advance (start [0xEB#8, 0xFE#8] 0#32)).output = some { regs := #v[0, 0, 0, 0, 0, 0, 0, 0], eip := 0 } := by decide

/-! ### The host's word and the assembler -/

theorem test_fetch_word : steps (State.reset.withFetchWord 40 0x12345678B9) (fun t => t.reg 1 == 0x12345678#32 && t.eip == 5#32) = true ∧
    steps (State.reset.withFetchWord 16 0x05EB) (fun t => t.eip == 7#32) = true ∧
    faults (State.reset.withFetchWord 8 0x90) (.decodeError 0x90#8) = true := by decide

/-- P2 and P6: the assembled jump of 40 and of 9. -/
theorem test_assemble_target : (AsmLine.jmpTo 0).assemble 40 = some [0xEB#8, 0xD6#8] ∧
    (AsmLine.jmpTo 2).assemble 9 = some [0xEB#8, 0xF7#8] ∧ (AsmLine.jmpTo 0).assemble 127 = none := by decide

/-- R61 and R62: a negative immediate, an explicit sign, and what is rejected. -/
theorem test_assemble_text : assembleText 0 "MOV r3, -1".toList = some [0xBB#8, 0xFF#8, 0xFF#8, 0xFF#8, 0xFF#8] ∧
    assembleText 0 "JMP +5".toList = some [0xEB#8, 0x05#8] ∧ assembleText 0 "JMP 5".toList = none ∧
    assembleText 0 "MOV r8, 1".toList = none ∧ assembleText 0 "MOV r0, 4294967296".toList = none := by decide

/-! ### A case that meets the hypotheses of each statement -/

theorem witness_DecodeOfEncodeGivesTheInstruction : (Instr.jmpRel8 (-128)).wf = true ∧ (Instr.movR5 7#32).wf = true := by decide
theorem witness_EncodeOfDecodeGivesTheBytes : decode [0xEB#8, 0x80#8, 0x90#8] = .ok (.jmpRel8 (-128), [0x90#8]) := by decide

theorem witness_OpcodeDispatchIsTotalAndClosed : (0xB8 ≤ (0xB8#8).toNat ∧ (0xBF#8).toNat ≤ 0xBF) ∧ (0xEB#8).toNat = 0xEB ∧
    (0xB7#8).toNat < 0xB8 ∧ (0xBF < (0xC0#8).toNat ∧ (0xC0#8).toNat ≠ 0xEB) := by decide

theorem witness_UndefinedOpcodeIsDecodeError : (start [0x90#8, 0xC0#8] 1#32).phase = .running ∧
    (start [0x90#8, 0xC0#8] 1#32).mem.byteAt 1 = .ok 0xC0#8 ∧ 0xC0 ≤ (0xC0#8).toNat ∧ (0xC0#8).toNat ≤ 0xEA := by decide

theorem witness_MemReadIsLittleEndianOrLowestOutside : 1 + 4 ≤ (start [0#8, 1#8, 2#8, 3#8, 4#8] 0#32).mem.size ∧
    0 < 4 ∧ (start [0#8, 1#8, 2#8, 3#8] 0#32).mem.size < 1 + 4 := by decide

theorem witness_SignedByteReadExtendsTheSign : readByte (start [0x7F#8] 0#32) 1 = .error (.outOfBounds 1) ∧
    readByte (start [0x7F#8] 0#32) 0 = .ok 0x7F#8 ∧ (0x7F#8).toNat ≤ 0x7F ∧
    readByte (start [0x80#8] 0#32) 0 = .ok 0x80#8 ∧ 0x80 ≤ (0x80#8).toNat := by decide

theorem witness_DoubleWordReadIsTheFourByteSum :
    (start [0#8, 1#8, 2#8, 3#8, 4#8] 0#32).mem.byteAt (0 + 1) = .ok 1#8 ∧
    (start [0#8, 1#8, 2#8, 3#8, 4#8] 0#32).mem.byteAt (0 + 1 + 1) = .ok 2#8 ∧
    (start [0#8, 1#8, 2#8, 3#8, 4#8] 0#32).mem.byteAt (0 + 1 + 2) = .ok 3#8 ∧
    (start [0#8, 1#8, 2#8, 3#8, 4#8] 0#32).mem.byteAt (0 + 1 + 3) = .ok 4#8 ∧
    3 < 4 ∧ (start [0#8, 1#8, 2#8, 3#8] 0#32).mem.size ≤ 0 + 1 + 3 := by decide

theorem witness_ByteReadsAreSlicesOfTheDoubleWord : (Memory.ofImage [1#8, 2#8, 3#8, 4#8]).memRead 0 4 = .ok 0x04030201#32 := by decide

theorem witness_EqualBuffersAreEqualData : (Memory.ofImage [1#8, 0#8]).wf = true ∧
    (({ size := 1, cells := [] } : Memory).place 0 1#8 |>.place 1 0#8).wf = true ∧
    (Memory.ofImage [1#8, 0#8]).size = (({ size := 1, cells := [] } : Memory).place 0 1#8 |>.place 1 0#8).size := by decide

theorem witness_EqualBuffersAreEqualData_bytes (a : Nat) :
    (Memory.ofImage [1#8, 0#8]).get a = (({ size := 1, cells := [] } : Memory).place 0 1#8 |>.place 1 0#8).get a := rfl

theorem witness_EveryBufferIsAnImage : ({ size := 3, cells := [(1, 9#8)] } : Memory).wf = true := by decide

theorem witness_ConstructionIsTheResetTable : ([5#8, 6#8] : List Byte)[1]? = some 6#8 ∧ ([5#8, 6#8] : List Byte).length ≤ 2 := by decide

theorem witness_EntryPointIsInitEip : ([5#8, 6#8] : List Byte)[(1#32).toNat]? = some 6#8 ∧ ([5#8, 6#8] : List Byte).length ≤ (2#32).toNat := by
  decide

theorem witness_StartAtZeroExecutes : decode [0xEB#8, 0x05#8] = .ok (.jmpRel8 5, []) ∧
    ((start [] 0#32).setPhase .halted).eip = 0#32 ∧ ((start [] 0#32).setPhase .halted).phase = .halted := by decide

theorem witness_MovLoadsItsRegisterAndNothingElse : ((7 : Fin 8), Instr.movR7 3#32) ∈
    [((0 : Fin 8), Instr.movR0 3#32), (1, .movR1 3#32), (2, .movR2 3#32), (3, .movR3 3#32), (4, .movR4 3#32), (5, .movR5 3#32),
      (6, .movR6 3#32), (7, .movR7 3#32)] := by decide

theorem witness_JmpMovesOnlyTheInstructionPointer : (-128 : Int) ≤ -128 ∧ (-128 : Int) ≤ 127 ∧ (-128 : Int) ≤ 127 ∧ (127 : Int) ≤ 127 := by
  decide

theorem witness_StepRunsTheDecodedInstruction : (start [0x90#8, 0xEB#8, 0x05#8] 1#32).phase = .running ∧
    (start [0x90#8, 0xEB#8, 0x05#8] 1#32).mem.holds 1 [0xEB#8, 0x05#8] ∧ decode [0xEB#8, 0x05#8] = .ok (.jmpRel8 5, []) :=
  ⟨rfl, Memory.holds_ofImage [0x90#8] [0xEB#8, 0x05#8], by decide⟩

theorem witness_StepOfLoadImmediateBytes : (start [0xBF#8, 1#8, 2#8, 3#8, 4#8] 0#32).phase = .running ∧
    (start [0xBF#8, 1#8, 2#8, 3#8, 4#8] 0#32).mem.holds 0 (BitVec.ofNat 8 (0xB8 + (7 : Fin 8)) :: immediateBytes 0x04030201#32) :=
  ⟨rfl, Memory.holds_ofImage [] [0xBF#8, 1#8, 2#8, 3#8, 4#8]⟩

theorem witness_StepOfJumpBytes : (start [0x90#8, 0xEB#8, 0x80#8] 1#32).phase = .running ∧
    (start [0x90#8, 0xEB#8, 0x80#8] 1#32).mem.holds 1 [0xEB#8, 0x80#8] :=
  ⟨rfl, Memory.holds_ofImage [0x90#8] [0xEB#8, 0x80#8]⟩

theorem witness_StepErrorsComeInOrder_fetch : (start [1#8] 1#32).phase = .running ∧ (start [1#8] 1#32).mem.size ≤ 1 := by decide
theorem witness_StepErrorsComeInOrder_undefined : (start [0xC0#8] 0#32).mem.byteAt 0 = .ok 0xC0#8 ∧
    decodeOpcode 0xC0#8 = .undefined 0xC0#8 := by decide
theorem witness_StepErrorsComeInOrder_mov : (start [0xBF#8, 1#8, 2#8, 3#8] 0#32).mem.byteAt 0 = .ok 0xBF#8 ∧
    decodeOpcode 0xBF#8 = .loadImm 7 ∧ (start [0xBF#8, 1#8, 2#8, 3#8] 0#32).mem.size < 0 + 5 ∧
    (start [0xBF#8, 1#8, 2#8, 3#8, 4#8] 0#32).mem.byteAt 0 = .ok 0xBF#8 ∧
    0 + 5 ≤ (start [0xBF#8, 1#8, 2#8, 3#8, 4#8] 0#32).mem.size := by decide
theorem witness_StepErrorsComeInOrder_jmp : (start [0xEB#8] 0#32).mem.byteAt 0 = .ok 0xEB#8 ∧ decodeOpcode 0xEB#8 = .jmpShort ∧
    (start [0xEB#8] 0#32).mem.size < 0 + 2 ∧ (start [0xEB#8, 1#8] 0#32).mem.byteAt 0 = .ok 0xEB#8 ∧
    0 + 2 ≤ (start [0xEB#8, 1#8] 0#32).mem.size := by decide

theorem witness_FatalErrorIsPrecise : step (start [0xB8#8, 1#8] 0#32) = .fault (.outOfBounds 2) ∧
    step (start [] 0#32) = .fault (.outOfBounds 0) := ⟨rfl, rfl⟩

theorem witness_completed_step : step (start [0xEB#8, 0xFE#8] 0#32) = .next ((start [0xEB#8, 0xFE#8] 0#32).setPhase .halted) := rfl

/-- For HaltedExactlyWhenEipIsZero, its third clause at the one address where it halts. -/
theorem witness_HaltedExactlyWhenEipIsZero : (top [0xB8#8, 7#8, 0#8, 0#8, 0#8] 0xFFFFFFFB#32).phase = .running ∧
    (top [0xB8#8, 7#8, 0#8, 0#8, 0#8] 0xFFFFFFFB#32).mem.holds 0xFFFFFFFB (BitVec.ofNat 8 (0xB8 + (0 : Fin 8)) :: immediateBytes 7#32) := by
  refine ⟨rfl, fun k b hk => ?_⟩
  match k, hk with
  | 0, hk => cases hk; rfl
  | 1, hk => cases hk; rfl
  | 2, hk => cases hk; rfl
  | 3, hk => cases hk; rfl
  | 4, hk => cases hk; rfl
  | k + 5, hk => cases hk

theorem witness_MemoryIsNeverWritten : exec (.movR1 5#32) (start [] 3#32) = .next (((start [] 3#32).setReg 1 5#32).setEip 8) := rfl

theorem witness_OnlyEndedRunsAreRefused : step ((start [] 0#32).setPhase .halted) = .refused .runEnded ∧
    ((start [] 0#32).setPhase .halted).phase ≠ .running := ⟨rfl, by decide⟩

theorem witness_ConstructionMeetsTheInvariant : ([1#8] : List Byte).length ≤ 2 ^ 32 := by decide

theorem witness_StepKeepsTheInvariant : (start [0xEB#8, 0xFE#8] 0#32).Inv := ⟨by decide, trivial⟩

theorem witness_RegisterValuesInfluenceNothing : (start [1#8] 0#32).eip = ((start [1#8] 0#32).setReg 3 9#32).eip ∧
    (start [1#8] 0#32).mem = ((start [1#8] 0#32).setReg 3 9#32).mem ∧
    (start [1#8] 0#32).phase = ((start [1#8] 0#32).setReg 3 9#32).phase ∧
    (start [1#8] 0#32).regs ≠ ((start [1#8] 0#32).setReg 3 9#32).regs := by decide

theorem witness_InitSpHasNoEffectOnExecution : fetch (State.construct 0#32 9#32 [0xEB#8, 0xFE#8]) = .ok (.jmpRel8 (-2)) ∧
    (runFor 1 (State.construct 0#32 9#32 [0xEB#8, 0xFE#8])).output = some { regs := #v[0, 0, 0, 0, 9, 0, 0, 0], eip := 0 } := by decide

theorem witness_OutputIsTheNineFieldsOfAHaltedRun : (runFor 1 (State.construct 0#32 0#32 [0xEB#8, 0xFE#8])).phase = .halted ∧
    (runFor 1 (State.construct 0#32 0#32 [0x90#8])).phase = .faulted (.decodeError 0x90#8) := by decide

theorem witness_FaultSignalCarriesItsCause : ((start [] 0#32).raise (.outOfBounds 0)).Inv ∧
    ((start [] 0#32).raise (.outOfBounds 0)).faultSignal = some (.outOfBounds 0) ∧
    ((start [0x90#8] 0#32).raise (.decodeError 0x90#8)).Inv :=
  ⟨⟨by decide, by decide, by decide, by decide⟩, rfl, by decide, by decide, by decide⟩

theorem witness_EndedRunsStayEnded : (runFor 1 (start [] 0#32)).phase ≠ .running := by decide

theorem witness_HostRunnerAgreesWithTheLoop :
    Sys2Proof.core.run 1 (start [0xEB#8, 0xFE#8] 0#32) = .next ((start [0xEB#8, 0xFE#8] 0#32).setPhase .halted) ∧
    Sys2Proof.core.run 1 (start [] 0#32) = .fault (.outOfBounds 0) ∧
    Sys2Proof.core.run 1 ((start [] 0#32).setPhase .halted) = .refused .runEnded := ⟨rfl, rfl, rfl⟩

theorem witness_JumpToItselfNeverEndsExceptAtZero : (start [0x90#8, 0xEB#8, 0xFE#8] 1#32).phase = .running ∧
    (start [0x90#8, 0xEB#8, 0xFE#8] 1#32).mem.holds 1 [0xEB#8, 0xFE#8] ∧ (start [0x90#8, 0xEB#8, 0xFE#8] 1#32).eip ≠ 0#32 ∧
    (start [0xEB#8, 0xFE#8] 0#32).mem.holds 0 [0xEB#8, 0xFE#8] :=
  ⟨rfl, Memory.holds_ofImage [0x90#8] [0xEB#8, 0xFE#8], by decide, Memory.holds_ofImage [] [0xEB#8, 0xFE#8]⟩

theorem witness_FetchWordRunsItsInstruction : (start [] 0xFFFFFFFE#32).mem.wf = true ∧
    decodeTableWord 16 0xF9EB = some (.jmpRel8 (-7)) ∧ (start [] 0xFFFFFFFE#32).eip.toNat + (Instr.jmpRel8 (-7)).length ≤ 2 ^ 32 := by decide

theorem witness_MovLineAssembles : (AsmLine.mov 7 (-2147483648)).assemble 0 = some [0xBF#8, 0x00#8, 0x00#8, 0x00#8, 0x80#8] ∧
    (AsmLine.mov 0 4294967295).assemble 0 = some [0xB8#8, 0xFF#8, 0xFF#8, 0xFF#8, 0xFF#8] := by decide

theorem witness_JumpLineGoesToItsTarget : (AsmLine.jmpTo 0).assemble 126 = some [0xEB#8, 0x80#8] ∧
    (AsmLine.jmpTo 129).assemble 0 = some [0xEB#8, 0x7F#8] := by decide

end Sys2Proof.Tests
end

section
/-! PROOFS. One turn of the loop said once, case by case, for the state it leaves. -/

namespace Sys2Proof.Machine

/-- A turn on a load-immediate writes its register and `eip`, then makes the halt test (R75, R85). -/
theorem advance_of_fetch_mov {s : State} {r : Fin 8} {v : Word} (hp : s.phase = .running)
    (hf : fetch s = .ok (Instr.mov r v)) :
    advance s = haltTest ((s.setReg r v).setEip ((s.eip.toNat : Int) + 5)) :=
  advance_of_next (by simp [step_of_running hp, hf, exec_mov, afterHandler])

/-- A turn on the jump writes `eip`, then makes the halt test (R75, R100). -/
theorem advance_of_fetch_jmp {s : State} {d : Int} (hp : s.phase = .running) (hf : fetch s = .ok (.jmpRel8 d)) :
    advance s = haltTest (s.setEip (jumpTarget s.eip d)) :=
  advance_of_next (by simp [step_of_running hp, hf, exec_jmp, afterHandler])

/-- A turn whose fetch or operand read fails takes that fatal error (R110). -/
theorem advance_of_fetch_error {s : State} {f : Fault} (hp : s.phase = .running) (hf : fetch s = .error f) :
    advance s = s.raise f :=
  advance_of_fault (by simp [step_of_running hp, hf])

/-- What decides which of the four kinds a turn is: the run has ended, the fetch fails, or it gives one of the two
families of instructions. -/
theorem turn_cases (s : State) :
    s.phase ≠ .running ∨ (s.phase = .running ∧ ((∃ f, fetch s = .error f) ∨
      (∃ r v, fetch s = .ok (Instr.mov r v)) ∨ ∃ d, fetch s = .ok (.jmpRel8 d))) := by
  by_cases hp : s.phase = .running
  · refine .inr ⟨hp, ?_⟩
    cases fetch s with
    | error f => exact .inl ⟨f, rfl⟩
    | ok i =>
      obtain ⟨r, v, rfl⟩ | ⟨d, rfl⟩ := instr_cases i
      · exact .inr (.inl ⟨r, v, rfl⟩)
      · exact .inr (.inr ⟨d, rfl⟩)
  · exact .inl hp

/-- A register keeps its value in a turn, unless the turn runs a load-immediate that names it (R13). -/
theorem advance_reg (s : State) (j : Fin 8) :
    (advance s).reg j = s.reg j ∨ ∃ v, fetch s = .ok (Instr.mov j v) ∧ (advance s).reg j = v := by
  obtain hp | ⟨hp, ⟨f, hf⟩ | ⟨r, v, hf⟩ | ⟨d, hf⟩⟩ := turn_cases s
  · exact .inl (by rw [advance_of_ended hp])
  · exact .inl (by rw [advance_of_fetch_error hp hf, State.raise, State.setPhase_reg])
  · rw [advance_of_fetch_mov hp hf, haltTest_reg, State.setEip_reg]
    by_cases hj : j = r
    · subst hj
      exact .inr ⟨v, hf, State.reg_setReg_same s j v⟩
    · exact .inl (State.reg_setReg_other s r j v hj)
  · exact .inl (by rw [advance_of_fetch_jmp hp hf, haltTest_reg, State.setEip_reg])

end Sys2Proof.Machine
end

section
/-! PROOFS. Noninterference of the registers (10_state.md R13): two runs from states that differ in registers only. -/

namespace Sys2Proof.Machine

/-- Two states are equal in everything but their registers. -/
structure State.AgreeOffRegs (s s' : State) : Prop where
  eip : s.eip = s'.eip
  mem : s.mem = s'.mem
  phase : s.phase = s'.phase

namespace State.AgreeOffRegs

variable {s s' : State}

theorem setReg (h : s.AgreeOffRegs s') (r : Fin 8) (v : Word) : (s.setReg r v).AgreeOffRegs (s'.setReg r v) :=
  ⟨h.eip, h.mem, h.phase⟩

theorem setEip (h : s.AgreeOffRegs s') (t : Int) : (s.setEip t).AgreeOffRegs (s'.setEip t) :=
  ⟨rfl, h.mem, h.phase⟩

theorem raise (h : s.AgreeOffRegs s') (f : Fault) : (s.raise f).AgreeOffRegs (s'.raise f) :=
  ⟨h.eip, h.mem, rfl⟩

/-- The halt test reads `eip` only. -/
theorem haltTest (h : s.AgreeOffRegs s') : (haltTest s).AgreeOffRegs (haltTest s') where
  eip := by simp [h.eip]
  mem := by simp [h.mem]
  phase := by simp [haltTest_phase, h.eip, h.phase]

/-- Fetch, decode and the operand reads see `eip` and memory, and no register. -/
theorem fetch_eq (h : s.AgreeOffRegs s') : fetch s = fetch s' := by
  have hbyte : readByte s = readByte s' := by
    funext off; rw [readByte, readByte, h.eip, h.mem]
  have hsigned : readSignedByte s = readSignedByte s' := by
    funext off; rw [readSignedByte, readSignedByte, hbyte]
  have hdouble : readDoubleWord s = readDoubleWord s' := by
    funext off; rw [readDoubleWord, readDoubleWord, h.eip, h.mem]
  rw [fetch, fetch, hbyte, hsigned, hdouble]

end State.AgreeOffRegs

/-- The states `t` and `t'` that two runs have reached from `s` and `s'` are in step: they agree off the registers, and
each register has either the same value in both, or in each the value that run began with. -/
structure InStep (s s' t t' : State) : Prop where
  agree : t.AgreeOffRegs t'
  reg : ∀ j, t.reg j = t'.reg j ∨ (t.reg j = s.reg j ∧ t'.reg j = s'.reg j)

/-- States that have the registers they began with are in step as soon as they agree off the registers. -/
theorem InStep.of_regs_kept {s s' t t' : State} (agree : t.AgreeOffRegs t') (h : ∀ j, t.reg j = s.reg j)
    (h' : ∀ j, t'.reg j = s'.reg j) : InStep s s' t t' :=
  ⟨agree, fun j => .inr ⟨h j, h' j⟩⟩

theorem InStep.trans {s s' t t' u u' : State} (h₁ : InStep s s' t t') (h₂ : InStep t t' u u') : InStep s s' u u' := by
  refine ⟨h₂.agree, fun j => ?_⟩
  obtain same | ⟨kept, kept'⟩ := h₂.reg j
  · exact .inl same
  · rw [kept, kept']
    exact h₁.reg j

/-- One turn keeps two runs in step: both take the same kind of turn, because that is decided by the phase and the
fetch, and a load-immediate puts the same value in the same register of both. -/
theorem advance_inStep {s s' : State} (h : s.AgreeOffRegs s') : InStep s s' (advance s) (advance s') := by
  obtain hp | ⟨hp, hturn⟩ := turn_cases s
  · rw [advance_of_ended hp, advance_of_ended (h.phase ▸ hp)]
    exact .of_regs_kept h (fun _ => rfl) (fun _ => rfl)
  have hp' : s'.phase = .running := h.phase ▸ hp
  obtain ⟨f, hf⟩ | ⟨r, v, hf⟩ | ⟨d, hf⟩ := hturn
  · rw [advance_of_fetch_error hp hf, advance_of_fetch_error hp' (h.fetch_eq ▸ hf)]
    exact .of_regs_kept (h.raise f) (fun _ => rfl) (fun _ => rfl)
  · rw [advance_of_fetch_mov hp hf, advance_of_fetch_mov hp' (h.fetch_eq ▸ hf), ← h.eip]
    refine ⟨((h.setReg r v).setEip _).haltTest, fun j => ?_⟩
    rw [haltTest_reg, haltTest_reg, State.setEip_reg, State.setEip_reg]
    by_cases hj : j = r
    · rw [hj, State.reg_setReg_same, State.reg_setReg_same]
      exact .inl rfl
    · exact .inr ⟨State.reg_setReg_other s r j v hj, State.reg_setReg_other s' r j v hj⟩
  · rw [advance_of_fetch_jmp hp hf, advance_of_fetch_jmp hp' (h.fetch_eq ▸ hf), ← h.eip]
    exact .of_regs_kept (h.setEip _).haltTest (fun j => haltTest_reg _ j) (fun j => haltTest_reg _ j)

/-- Two runs that begin in states equal but for registers stay in step. -/
theorem runFor_inStep (n : Nat) {s s' : State} (h : s.AgreeOffRegs s') : InStep s s' (runFor n s) (runFor n s') := by
  induction n generalizing s s' with
  | zero => exact .of_regs_kept h (fun _ => rfl) (fun _ => rfl)
  | succ n ih => exact (advance_inStep h).trans (ih (advance_inStep h).agree)

/-- Settles O34: the first three clauses are the meanings of the two families and the register frame of a turn; the last
is the invariant `InStep`, which one turn keeps and so a run of any length. -/
theorem registerValuesInfluenceNothing : Obligations.RegisterValuesInfluenceNothing := by
  unfold Obligations.RegisterValuesInfluenceNothing
  refine ⟨fun r v s => ?_, fun d s => ?_, advance_reg, fun n s s' heip hmem hphase => ?_⟩
  · exact ⟨_, exec_mov r v s, State.reg_setReg_same s r v, fun j hj => State.reg_setReg_other s r j v hj⟩
  · exact ⟨_, exec_jmp d s, fun j => State.setEip_reg s _ j⟩
  · obtain ⟨⟨eip, mem, phase⟩, reg⟩ := runFor_inStep n ⟨heip, hmem, hphase⟩
    exact ⟨eip, mem, phase, reg⟩

end Sys2Proof.Machine
end

section
/-! PROOFS. Memory is read-only (20_memory.md R33): the frame of `exec`, `step`, a turn of the loop and a run. -/

namespace Sys2Proof.Machine

/-- No instruction stores: a load-immediate writes a register and `eip`, the jump writes `eip` alone. -/
theorem exec_mem {i : Instr} {s t : State} (h : exec i s = .next t) : t.mem = s.mem := by
  obtain ⟨r, v, rfl⟩ | ⟨d, rfl⟩ := instr_cases i
  · rw [exec_mov] at h
    cases h
    rw [State.setEip_mem, State.setReg_mem]
  · rw [exec_jmp] at h
    cases h
    rw [State.setEip_mem]

/-- A completed step is an instruction and the halt test, and neither writes memory. -/
theorem step_mem {s t : State} (h : step s = .next t) : t.mem = s.mem := by
  obtain ⟨-, r, v, -, ht⟩ | ⟨-, d, -, ht⟩ | ⟨-, f, -, ht⟩ | ⟨-, ht⟩ := step_cases h
  · cases ht
    rw [haltTest_mem, State.setEip_mem, State.setReg_mem]
  · cases ht
    rw [haltTest_mem, State.setEip_mem]
  · cases ht
  · cases ht

/-- A turn of the loop keeps memory whether it completes, takes a fatal error (R117) or finds the run ended (R23). -/
@[simp] theorem advance_mem (s : State) : (advance s).mem = s.mem := by
  cases h : step s with
  | next t => rw [advance_of_next h, step_mem h]
  | fault f => rw [advance_of_fault h, State.raise_mem]
  | refused r => rw [advance, h, settle]

/-- Memory is what it was before the first turn, at every point of a run. -/
@[simp] theorem runFor_mem (n : Nat) (s : State) : (runFor n s).mem = s.mem :=
  runFor_induction (P := fun t => t.mem = s.mem) (fun t ht => (advance_mem t).trans ht) n s rfl

/-- Settles O27: the frame of an instruction gives that of a step, of a turn, and by induction of a run. -/
theorem memoryIsNeverWritten : Obligations.MemoryIsNeverWritten :=
  ⟨fun _ _ _ => exec_mem, fun _ _ => step_mem, advance_mem, runFor_mem⟩

end Sys2Proof.Machine
end

section
/-! PROOFS. The undefined opcodes (30_encoding.md R57): which bytes they are, and what fetching one does. -/

namespace Sys2Proof

/-- The byte is in one of the three ranges that R57 leaves undefined. -/
def UndefinedRange (op : Byte) : Prop :=
  op.toNat ≤ 0xB7 ∨ (0xC0 ≤ op.toNat ∧ op.toNat ≤ 0xEA) ∨ 0xEC ≤ op.toNat

/-- The dispatcher's mask picks out the eight consecutive load-immediate opcodes (R53, R59). -/
theorem opcode_mask_iff : ∀ op : Byte, op &&& 0xF8#8 = 0xB8#8 ↔ 0xB8 ≤ op.toNat ∧ op.toNat ≤ 0xBF := by decide

/-- What the dispatcher leaves over, the load-immediate opcodes and the jump opcode taken away, are the three ranges. -/
theorem decodeOpcode_undefined_iff (op : Byte) : decodeOpcode op = .undefined op ↔ UndefinedRange op := by
  have hjump : op = 0xEB#8 ↔ op.toNat = 0xEB := by rw [← BitVec.toNat_inj]; rfl
  unfold decodeOpcode UndefinedRange
  simp only [opcode_mask_iff, hjump]
  split
  case isTrue hmov => exact iff_of_false nofun (by omega)
  case isFalse hmov =>
    split
    case isTrue hjmp => exact iff_of_false nofun (by omega)
    case isFalse hjmp => exact iff_of_true rfl (by omega)

/-- The dispatcher has no handler for the byte of this number: the test by which the statement counts. -/
def undefinedNumber (n : Nat) : Bool := decodeOpcode (BitVec.ofNat 8 n) == .undefined (BitVec.ofNat 8 n)

theorem undefinedNumber_iff {n : Nat} (hn : n < 256) :
    undefinedNumber n = true ↔ n ≤ 0xB7 ∨ (0xC0 ≤ n ∧ n ≤ 0xEA) ∨ 0xEC ≤ n := by
  rw [undefinedNumber, beq_iff_eq, decodeOpcode_undefined_iff, UndefinedRange, BitVec.toNat_ofNat, Nat.mod_eq_of_lt hn]

/-- A stretch of undefined bytes counts in full. -/
theorem countP_undefined_stretch {a n : Nat} (h : ∀ k, a ≤ k → k < a + n → undefinedNumber k = true) :
    (List.range' a n).countP undefinedNumber = n := by
  rw [List.countP_eq_length.mpr (fun k hk => ?_), List.length_range']
  obtain ⟨hlo, hhi⟩ := List.mem_range'_1.mp hk
  exact h k hlo hhi

/-- A stretch of defined bytes does not count. -/
theorem countP_defined_stretch {a n : Nat} (h : ∀ k, a ≤ k → k < a + n → ¬ undefinedNumber k = true) :
    (List.range' a n).countP undefinedNumber = 0 := by
  refine List.countP_eq_zero.mpr (fun k hk => ?_)
  obtain ⟨hlo, hhi⟩ := List.mem_range'_1.mp hk
  exact h k hlo hhi

/-- The 256 bytes, cut where R57's ranges end. -/
theorem range_256_eq_stretches : List.range 256 =
    List.range' 0x00 184 ++ List.range' 0xB8 8 ++ List.range' 0xC0 43 ++ List.range' 0xEB 1 ++ List.range' 0xEC 20 := by
  rw [List.range_eq_range', ← List.range'_append_1 (m := 236) (n := 20), ← List.range'_append_1 (m := 235) (n := 1),
    ← List.range'_append_1 (m := 192) (n := 43), ← List.range'_append_1 (m := 184) (n := 8)]

/-- The three ranges hold 184, 43 and 20 bytes, which makes 247. -/
theorem countP_undefinedNumber : (List.range 256).countP undefinedNumber = 247 := by
  rw [range_256_eq_stretches]
  simp only [List.countP_append]
  rw [countP_undefined_stretch (a := 0x00), countP_defined_stretch (a := 0xB8), countP_undefined_stretch (a := 0xC0),
    countP_defined_stretch (a := 0xEB), countP_undefined_stretch (a := 0xEC)]
  all_goals
    intro k hlo hhi
    rw [undefinedNumber_iff (by omega)]
    omega

namespace Machine

/-- Fetching an undefined opcode is an error before any operand is read (R111, R119). -/
theorem fetch_of_undefined {s : State} {op : Byte} (hbyte : s.mem.byteAt s.eip.toNat = .ok op)
    (hop : decodeOpcode op = .undefined op) : fetch s = .error (.decodeError op) := by
  have hread : readByte s 0 = .ok op := by rw [readByte_eq, Nat.add_zero, hbyte]
  simp [fetch, decodeWith, hread, hop]

/-- A step takes the error of its fetch as its fault (R72, R110). -/
theorem step_of_fetch_error {s : State} {f : Fault} (hp : s.phase = .running) (hf : fetch s = .error f) :
    step s = .fault f := by
  simp [step_of_running hp, hf]

/-- Settles O5: the ranges from the two tests of the dispatcher, the number by counting, and the fault from the
fetch, which fails on the opcode byte. -/
theorem undefinedOpcodeIsDecodeError : Obligations.UndefinedOpcodeIsDecodeError := by
  unfold Obligations.UndefinedOpcodeIsDecodeError
  refine ⟨decodeOpcode_undefined_iff, List.countP_eq_length_filter.symm.trans countP_undefinedNumber, fun s op hp hbyte hrange => ?_⟩
  have hop : decodeOpcode op = .undefined op := (decodeOpcode_undefined_iff op).mpr hrange
  exact step_of_fetch_error hp (fetch_of_undefined hbyte hop)

end Machine
end Sys2Proof
end

section
/-! PROOFS. The outputs of a run (40_fetch_dispatch.md R77, 60_exceptions.md R116): what each phase exposes, and that
Halted is reached with `eip = 0` only. -/

namespace Sys2Proof.Machine

/-- A Halted state exposes its eight registers and `eip` (R77). -/
theorem State.output_of_halted {s : State} (h : s.phase = .halted) :
    s.output = some { regs := s.regs, eip := s.eip } := by
  rw [State.output, h]

/-- In no other phase is there an output (R77). -/
theorem State.output_of_not_halted {s : State} (h : s.phase ≠ .halted) : s.output = none := by
  cases hp : s.phase with
  | running => rw [State.output, hp]
  | halted => exact absurd hp h
  | faulted f => rw [State.output, hp]

/-- A Faulted state signals the error it took (R116). -/
theorem State.faultSignal_of_faulted {s : State} {f : Fault} (h : s.phase = .faulted f) : s.faultSignal = some f := by
  rw [State.faultSignal, h]

/-- The halt test ends a Running run at `eip = 0` only (R75). -/
theorem eip_zero_of_haltTest_halted {s : State} (hp : s.phase = .running) (h : (haltTest s).phase = .halted) :
    (haltTest s).eip = 0#32 := by
  rw [haltTest_eip]
  by_contra hne
  rw [haltTest_phase, if_neg hne, hp] at h
  cases h

/-- A turn keeps it that a Halted state has `eip = 0`: an ended run stays as it is, a fatal error does not halt, and a
completed instruction halts through the halt test. -/
theorem advance_eip_zero_of_halted {s : State} (hs : s.phase = .halted → s.eip = 0#32) :
    (advance s).phase = .halted → (advance s).eip = 0#32 := by
  obtain hp | ⟨hp, ⟨f, hf⟩ | ⟨r, v, hf⟩ | ⟨d, hf⟩⟩ := turn_cases s
  · rwa [advance_of_ended hp]
  · rw [advance_of_fetch_error hp hf, State.raise_phase]
    exact nofun
  · rw [advance_of_fetch_mov hp hf]
    exact eip_zero_of_haltTest_halted hp
  · rw [advance_of_fetch_jmp hp hf]
    exact eip_zero_of_haltTest_halted hp

/-- A run from a Running state is Halted with `eip = 0` only, at every point (R75, R77). -/
theorem runFor_eip_zero_of_halted (n : Nat) {s : State} (hp : s.phase = .running) :
    (runFor n s).phase = .halted → (runFor n s).eip = 0#32 :=
  runFor_induction (P := fun t => t.phase = .halted → t.eip = 0#32) (fun _ => advance_eip_zero_of_halted) n s
    (fun hh => nomatch hp.symm.trans hh)

/-- Settles O36: the outputs are read off the phase, `eip = 0` is the invariant of the halt test along the run from
construction, and memory is the frame of a run. -/
theorem outputIsTheNineFieldsOfAHaltedRun : Obligations.OutputIsTheNineFieldsOfAHaltedRun := by
  unfold Obligations.OutputIsTheNineFieldsOfAHaltedRun
  intro initEip initSp image n s
  refine ⟨fun hh => ⟨State.output_of_halted hh, ?_⟩, State.output_of_not_halted, fun f hf => ⟨?_, ?_⟩, ?_⟩
  · exact runFor_eip_zero_of_halted n (State.construct_phase initEip initSp image) hh
  · exact State.output_of_not_halted (by rw [hf]; exact nofun)
  · exact State.faultSignal_of_faulted hf
  · exact (runFor_mem n _).trans (State.construct_mem initEip initSp image)

end Sys2Proof.Machine
end

section
/-! PROOFS. `INIT_SP` has no effect on execution (70_reset_and_hazards.md R138): two runs from constructions that differ
in it, and a register that no load-immediate of a run names. -/

namespace Sys2Proof.Machine

/-- Construction puts `INIT_SP` in register 4 (R135). -/
theorem State.construct_reg_four (e sp : Word) (img : List Byte) : (State.construct e sp img).reg 4 = sp := rfl

/-- Every other register is 0 after construction (R135). -/
theorem State.construct_reg_other (e sp : Word) (img : List Byte) :
    ∀ {j : Fin 8}, j ≠ 4 → (State.construct e sp img).reg j = 0#32
  | 4, hj => absurd rfl hj
  | 0, _ | 1, _ | 2, _ | 3, _ | 5, _ | 6, _ | 7, _ => rfl

/-- Constructions that differ in `INIT_SP` only differ in registers only. -/
theorem State.construct_agreeOffRegs (e sp sp' : Word) (img : List Byte) :
    (State.construct e sp img).AgreeOffRegs (State.construct e sp' img) := ⟨rfl, rfl, rfl⟩

/-- A turn that runs no load-immediate of register `j` keeps its value. An ended run keeps it whatever stands at `eip`. -/
theorem advance_reg_of_not_loaded {s : State} {j : Fin 8}
    (h : s.phase = .running → ∀ v, fetch s ≠ .ok (Instr.mov j v)) : (advance s).reg j = s.reg j := by
  by_cases hp : s.phase = .running
  · obtain kept | ⟨v, hf, -⟩ := advance_reg s j
    · exact kept
    · exact absurd hf (h hp v)
  · rw [advance_of_ended hp]

/-- A run that executes no load-immediate of register `j` keeps its value (R13). -/
theorem runFor_reg_of_not_loaded (n : Nat) {s : State} {j : Fin 8}
    (h : ∀ k, k < n → (runFor k s).phase = .running → ∀ v, fetch (runFor k s) ≠ .ok (Instr.mov j v)) :
    (runFor n s).reg j = s.reg j := by
  induction n generalizing s with
  | zero => rfl
  | succ n ih =>
    calc (runFor n (advance s)).reg j
      _ = (advance s).reg j := ih fun k hk => h (k + 1) (Nat.succ_lt_succ hk)
      _ = s.reg j := advance_reg_of_not_loaded (h 0 n.succ_pos)

/-- The registers of an output are the state's (R77). -/
theorem State.regs_of_output {s : State} {o : Output} (h : s.output = some o) : o.regs = s.regs := by
  by_cases hp : s.phase = .halted
  · rw [State.output_of_halted hp] at h
    cases h
    rfl
  · rw [State.output_of_not_halted hp] at h
    cases h

/-- Settles O35: the two runs are in step from their constructions, which differ in register 4 only, so a register is the
same in both or still what its construction put there; and without a load-immediate of register 4 an output shows the
`INIT_SP` that construction put there. -/
theorem initSpHasNoEffectOnExecution : Obligations.InitSpHasNoEffectOnExecution := by
  unfold Obligations.InitSpHasNoEffectOnExecution
  intro initEip sp sp' image n
  obtain ⟨⟨eip, mem, phase⟩, reg⟩ := runFor_inStep n (State.construct_agreeOffRegs initEip sp sp' image)
  refine ⟨eip, phase, mem, fun j hj => ?_, reg 4, fun hload o ho => ?_⟩
  · obtain same | ⟨kept, kept'⟩ := reg j
    · exact same
    · rw [kept, kept', State.construct_reg_other _ _ _ hj, State.construct_reg_other _ _ _ hj]
  · rw [State.regs_of_output ho]
    exact (runFor_reg_of_not_loaded n hload).trans (State.construct_reg_four initEip sp image)

end Sys2Proof.Machine
end

section
/-! PROOFS. One decoder over any byte source: decoding a list of bytes and fetching from memory are its two uses, and it
answers an instruction exactly where that instruction's encoding stands (30_encoding.md sections 1 to 3). -/

namespace Sys2Proof

variable {ε : Type} {src : Nat → Except ε Byte} {a : Nat}

/-! ### Bytes standing in a source -/

/-- The bytes `bs` are what the source answers at `a, a+1, …`: `Memory.holds`, for any source. -/
def StandsAt (src : Nat → Except ε Byte) (a : Nat) (bs : List Byte) : Prop :=
  ∀ (k : Nat) (b : Byte), bs[k]? = some b → src (a + k) = .ok b

theorem standsAt_nil : StandsAt src a [] := fun _ _ h => nomatch h

theorem standsAt_cons {b : Byte} {bs : List Byte} :
    StandsAt src a (b :: bs) ↔ src a = .ok b ∧ StandsAt src (a + 1) bs := by
  constructor
  · intro h
    exact ⟨h 0 b rfl, fun k c hk => by rw [Nat.add_right_comm]; exact h (k + 1) c hk⟩
  · rintro ⟨hb, hbs⟩ k c hk
    cases k with
    | zero => cases hk; exact hb
    | succ k => rw [← Nat.add_assoc, Nat.add_right_comm]; exact hbs k c hk

/-- In the source of a list the bytes stand at 0 exactly when the list begins with them. -/
theorem standsAt_listByte_iff {bs cs : List Byte} : StandsAt (listByte bs) 0 cs ↔ cs <+: bs := by
  rw [List.prefix_iff_getElem?]
  have hbyte : ∀ k b, listByte bs (0 + k) = .ok b ↔ bs[k]? = some b := by
    intro k b
    rw [Nat.zero_add, listByte]
    cases bs[k]? <;> simp
  constructor
  · intro h k hk
    exact (hbyte k _).mp (h k _ (List.getElem?_eq_getElem hk))
  · intro h k b hk
    obtain ⟨hlt, rfl⟩ := List.getElem?_eq_some_iff.mp hk
    exact (hbyte k _).mpr (h k hlt)

/-! ### The operand reads -/

/-- A double word is read exactly where the four bytes of the immediate stand (R54). -/
theorem readUnsigned_four_iff {v : Word} : readUnsigned src a 4 = .ok v ↔ StandsAt src a (immediateBytes v) := by
  constructor
  · intro h
    unfold readUnsigned at h
    cases hbs : readBytes src a 4 with
    | error e => rw [hbs] at h; cases h
    | ok bs =>
      rw [hbs] at h
      obtain ⟨hlen, hstand⟩ := readBytes_ok 4 a hbs
      obtain ⟨b0, b1, b2, b3, rfl⟩ : ∃ b0 b1 b2 b3, bs = [b0, b1, b2, b3] := by
        match bs, hlen with
        | [b0, b1, b2, b3], _ => exact ⟨b0, b1, b2, b3, rfl⟩
      cases h
      rw [immediateBytes_littleEndian b0 b1 b2 b3]
      exact hstand
  · intro h
    rw [← littleEndian_immediateBytes v]
    exact readUnsigned_four (h 0 _ rfl) (h 1 _ rfl) (h 2 _ rfl) (h 3 _ rfl)

theorem displacementOk_iff {d : Int} : displacementOk d = true ↔ -128 ≤ d ∧ d ≤ 127 := by
  rw [displacementOk, Bool.and_eq_true, decide_eq_true_eq, decide_eq_true_eq]

/-- A displacement is read exactly where its byte stands, and it is in range (R55). -/
theorem readSigned_iff {d : Int} :
    readSigned src a = .ok d ↔ displacementOk d = true ∧ src a = .ok (BitVec.ofInt 8 d) := by
  rw [displacementOk_iff, readSigned, readUnsigned_one]
  constructor
  · intro h
    cases hb : src a with
    | error e => rw [hb] at h; cases h
    | ok b =>
      rw [hb] at h
      cases h
      rw [ofInt_signExtendByte]
      exact ⟨signExtendByte_range b, rfl⟩
  · rintro ⟨⟨hlo, hhi⟩, hb⟩
    rw [hb, ← signExtendByte_ofInt hlo hhi]
    simp [ofInt_signExtendByte]

/-! ### The opcode byte -/

/-- The load-immediate opcodes are `0xB8 + i` (R52, R53). -/
theorem decodeOpcode_loadImm_iff {op : Byte} {i : Nat} :
    decodeOpcode op = .loadImm i ↔ i < 8 ∧ op = BitVec.ofNat 8 (0xB8 + i) := by
  have hmov : ∀ r : Fin 8, decodeOpcode (BitVec.ofNat 8 (0xB8 + r)) = .loadImm r := by decide
  constructor
  · exact decodeOpcode_loadImm
  · rintro ⟨hi, rfl⟩
    exact hmov ⟨i, hi⟩

/-- The jump opcode is 0xEB (R52). -/
theorem decodeOpcode_jmpShort_iff {op : Byte} : decodeOpcode op = .jmpShort ↔ op = 0xEB#8 :=
  ⟨decodeOpcode_jmpShort, fun h => h ▸ rfl⟩

/-! ### The decoder over a source -/

/-- The decoder reading its three operand forms from one byte source, the opcode byte at `a`. -/
def decodeFrom (src : Nat → Except ε Byte) (a : Nat) (noHandler : Byte → ε) (badIndex : Nat → ε) : Except ε Instr :=
  decodeWith (fun off => src (a + off)) (fun off => readSigned src (a + off)) (fun off => readUnsigned src (a + off) 4)
    noHandler badIndex

variable {noHandler : Byte → ε} {badIndex : Nat → ε} {i : Instr}

/-- What the decoder answers is well-formed, and its encoding stands where the decoder read. -/
theorem standsAt_encode_of_decodeFrom (h : decodeFrom src a noHandler badIndex = .ok i) :
    i.wf = true ∧ StandsAt src a (encode i) := by
  obtain ⟨e, -, hr⟩ | ⟨op, hbyte, hread⟩ := decodeWith_cases h
  · cases hr
  · rw [Nat.add_zero] at hbyte
    obtain ⟨r, v, hi, hop, hv, hr⟩ | ⟨r, e, -, -, -, hr⟩ | ⟨d, hop, hd, hr⟩ | ⟨e, -, -, hr⟩ | ⟨-, hr⟩ := hread
    · cases hr
      rw [encode_mov]
      exact ⟨mov_wf _ v, standsAt_cons.mpr ⟨(decodeOpcode_loadImm_iff.mp hop).2 ▸ hbyte, readUnsigned_four_iff.mp hv⟩⟩
    · cases hr
    · cases hr
      obtain ⟨hwf, hd⟩ := readSigned_iff.mp hd
      exact ⟨hwf, standsAt_cons.mpr ⟨decodeOpcode_jmpShort hop ▸ hbyte, standsAt_cons.mpr ⟨hd, standsAt_nil⟩⟩⟩
    · cases hr
    · cases hr

/-- Where the encoding of a well-formed instruction stands, the decoder answers it. -/
theorem decodeFrom_of_standsAt_encode (hwf : i.wf = true) (h : StandsAt src a (encode i)) :
    decodeFrom src a noHandler badIndex = .ok i := by
  obtain ⟨r, v, rfl⟩ | ⟨d, rfl⟩ := Machine.instr_cases i
  · rw [encode_mov] at h
    obtain ⟨hop, himm⟩ := standsAt_cons.mp h
    have hdispatch := decodeOpcode_loadImm_iff.mpr ⟨r.isLt, rfl⟩
    simp [decodeFrom, decodeWith, hop, hdispatch, readUnsigned_four_iff.mpr himm]
  · obtain ⟨hop, hd⟩ := standsAt_cons.mp h
    have hread := readSigned_iff.mpr ⟨hwf, (standsAt_cons.mp hd).1⟩
    simp [decodeFrom, decodeWith, hop, decodeOpcode_jmpShort_iff.mpr rfl, hread]

/-- The decoder answers an instruction exactly where its encoding stands. -/
theorem decodeFrom_eq_ok_iff :
    decodeFrom src a noHandler badIndex = .ok i ↔ i.wf = true ∧ StandsAt src a (encode i) :=
  ⟨standsAt_encode_of_decodeFrom, fun ⟨hwf, h⟩ => decodeFrom_of_standsAt_encode hwf h⟩

/-! ### Lists of bytes -/

/-- The encoding is as long as the instruction (R50, R51). -/
theorem encode_length (i : Instr) : (encode i).length = i.length := by cases i <;> rfl

/-- Decoding a list is the decoder over the list's bytes. -/
theorem decode_eq_decodeFrom (bs : List Byte) :
    decode bs = (decodeFrom (listByte bs) 0 .undefinedOpcode .registerIndex).map (fun i => (i, bs.drop i.length)) := by
  simp only [decode, decodeFrom, readUnsigned_one, Nat.zero_add]
  cases decodeWith (listByte bs) (readSigned (listByte bs)) (fun off => readUnsigned (listByte bs) off 4)
    DecodeFailure.undefinedOpcode DecodeFailure.registerIndex <;> rfl

/-- A list decodes to exactly the well-formed instruction whose encoding it begins with. -/
theorem decode_eq_ok_iff {bs rest : List Byte} {i : Instr} :
    decode bs = .ok (i, rest) ↔ i.wf = true ∧ bs = encode i ++ rest := by
  have hdecode : decode bs = .ok (i, rest) ↔
      decodeFrom (listByte bs) 0 .undefinedOpcode .registerIndex = .ok i ∧ bs.drop i.length = rest := by
    rw [decode_eq_decodeFrom]
    cases decodeFrom (listByte bs) 0 DecodeFailure.undefinedOpcode DecodeFailure.registerIndex with
    | error e => simp [Except.map]
    | ok j =>
      simp only [Except.map, Except.ok.injEq, Prod.mk.injEq]
      exact and_congr_right fun hj => by rw [hj]
  rw [hdecode, decodeFrom_eq_ok_iff, standsAt_listByte_iff, and_assoc, ← encode_length]
  refine and_congr_right fun _ => ⟨?_, ?_⟩
  · rintro ⟨hprefix, rfl⟩
    exact List.prefix_iff_eq_append.mp hprefix |>.symm
  · rintro rfl
    exact ⟨List.prefix_append _ _, List.drop_left⟩

/-- Settles O1: the encoding stands at the beginning of the list. -/
theorem decodeOfEncodeGivesTheInstruction : Obligations.DecodeOfEncodeGivesTheInstruction :=
  fun _ _ hwf => decode_eq_ok_iff.mpr ⟨hwf, rfl⟩

/-- Settles O2: what decodes has its encoding at the beginning of the list. -/
theorem encodeOfDecodeGivesTheBytes : Obligations.EncodeOfDecodeGivesTheBytes :=
  fun _ _ _ h => decode_eq_ok_iff.mp h

/-- Settles O3: each of the four words is the encoding of its instruction. -/
theorem writtenOutWordsDecode : Obligations.WrittenOutWordsDecode :=
  ⟨decode_eq_ok_iff.mpr ⟨rfl, rfl⟩, decode_eq_ok_iff.mpr ⟨rfl, rfl⟩, decode_eq_ok_iff.mpr ⟨rfl, rfl⟩,
    decode_eq_ok_iff.mpr ⟨rfl, rfl⟩⟩

/-- Settles O4: the opcodes of the two families, and the ranges that they leave over. -/
theorem opcodeDispatchIsTotalAndClosed : Obligations.OpcodeDispatchIsTotalAndClosed := by
  unfold Obligations.OpcodeDispatchIsTotalAndClosed
  refine fun op => ⟨fun hlo hhi => ?_, fun hjmp => ?_, fun hrest => ?_⟩
  · refine decodeOpcode_loadImm_iff.mpr ⟨by omega, ?_⟩
    rw [Nat.add_sub_cancel' hlo, BitVec.ofNat_toNat, BitVec.setWidth_eq]
  · exact decodeOpcode_jmpShort_iff.mpr (BitVec.eq_of_toNat_eq hjmp)
  · rw [decodeOpcode_undefined_iff, UndefinedRange]
    omega

end Sys2Proof
end

section
/-! PROOFS. The fetch (40_fetch_dispatch.md R71 to R73): it is the decoder over the buffer's bytes, and its errors are the
ones of 60_exceptions.md R119, in that order. -/

namespace Sys2Proof.Machine

/-! ### Reads of the buffer -/

/-- Bytes stand in a buffer when they stand in the source that its bounds-checked byte is. -/
theorem Memory.holds_iff_standsAt {m : Memory} {a : Nat} {bs : List Byte} : m.holds a bs ↔ StandsAt m.byteAt a bs := Iff.rfl

/-- Inside the buffer the bytes read are the ones standing there. -/
theorem Memory.readBytes_of_inside {m : Memory} {a n : Nat} (h : a + n ≤ m.size) :
    readBytes m.byteAt a n = .ok ((List.range' a n).map (cellAt m.cells)) := by
  induction n generalizing a with
  | zero => rfl
  | succ n ih =>
    have hbyte : m.byteAt a = .ok (cellAt m.cells a) := Memory.byteAt_of_lt (by omega)
    simp [readBytes, hbyte, ih (a := a + 1) (by omega), List.range'_succ]

/-- A read fails exactly where it is not empty and runs off the buffer, at the lowest address outside (R36, D5). -/
theorem Memory.memRead_eq_error_iff {m : Memory} {a n : Nat} {f : Fault} :
    m.memRead a n = .error f ↔ 0 < n ∧ m.size < a + n ∧ f = .outOfBounds (max a m.size) := by
  by_cases houtside : 0 < n ∧ m.size < a + n
  · obtain ⟨hn, hsize⟩ := houtside
    rw [Memory.memRead_of_outside hn hsize, Except.error.injEq]
    simp [hn, hsize, eq_comm]
  · refine iff_of_false (fun h => ?_) (fun ⟨hn, hsize, _⟩ => houtside ⟨hn, hsize⟩)
    by_cases hn : n = 0
    · subst hn; cases h
    · rw [Memory.memRead, readUnsigned, Memory.readBytes_of_inside (by omega)] at h
      cases h

/-- Settles O6: the bytes that stand inside are read one by one; one outside makes the read fail. -/
theorem memReadIsLittleEndianOrLowestOutside : Obligations.MemReadIsLittleEndianOrLowestOutside := by
  unfold Obligations.MemReadIsLittleEndianOrLowestOutside
  refine fun m a n => ⟨fun hinside => ?_, Memory.memRead_of_outside⟩
  have hread := Memory.readBytes_of_inside hinside
  obtain ⟨hlen, hholds⟩ := readBytes_ok n a hread
  exact ⟨_, hlen, hholds, by rw [Memory.memRead, readUnsigned, hread]⟩

/-- A sign-extended byte is its two's-complement value. -/
theorem signExtendByte_eq_toInt (b : Byte) : signExtendByte b = b.toInt := by
  rw [signExtendByte, BitVec.toInt_eq_toNat_cond]
  split <;> split <;> omega

/-- Settles O7: the signed read is the byte read, reinterpreted. -/
theorem signedByteReadExtendsTheSign : Obligations.SignedByteReadExtendsTheSign := by
  unfold Obligations.SignedByteReadExtendsTheSign
  refine fun s off => ⟨fun f hf => by rw [readSignedByte, hf], fun b hb => ?_⟩
  have hread : readSignedByte s off = .ok (signExtendByte b) := by rw [readSignedByte, hb]
  refine ⟨by rw [hread, signExtendByte_eq_toInt], fun hlo => ?_, fun hhi => ?_⟩
  · rw [hread, signExtendByte, if_pos (by omega)]
  · rw [hread, signExtendByte, if_neg (by omega)]

/-- Settles O8: four bytes inside give their sum, and one outside makes the whole read fail. -/
theorem doubleWordReadIsTheFourByteSum : Obligations.DoubleWordReadIsTheFourByteSum := by
  unfold Obligations.DoubleWordReadIsTheFourByteSum
  refine fun s off => ⟨fun b0 b1 b2 b3 h0 h1 h2 h3 => ?_, fun k hk houtside => ?_⟩
  · refine ⟨_, readUnsigned_four h0 h1 h2 h3, ?_⟩
    have := b0.isLt; have := b1.isLt; have := b2.isLt; have := b3.isLt
    simp only [littleEndian, BitVec.toNat_ofNat]
    omega
  · exact ⟨_, Memory.memRead_of_outside (by omega) (by omega)⟩

/-- Settles O9: a double word is read where its four bytes stand, and a byte read gives the byte that stands there. -/
theorem byteReadsAreSlicesOfTheDoubleWord : Obligations.ByteReadsAreSlicesOfTheDoubleWord := by
  unfold Obligations.ByteReadsAreSlicesOfTheDoubleWord
  intro m a v h
  have hstand : StandsAt m.byteAt a (immediateBytes v) := readUnsigned_four_iff.mp h
  have hread : ∀ x, m.memRead x 1 = m.byteAt x := readUnsigned_one _
  simp only [hread]
  exact ⟨hstand 0 _ rfl, hstand 1 _ rfl, hstand 2 _ rfl, hstand 3 _ rfl⟩

/-! ### The fetch -/

/-- The signed read is the decoder's over the buffer's bytes. -/
theorem readSignedByte_eq (s : State) (off : Nat) :
    readSignedByte s off = readSigned s.mem.byteAt (s.eip.toNat + off) := by
  rw [readSignedByte, readByte, Memory.memRead, readSigned]
  cases readUnsigned s.mem.byteAt (s.eip.toNat + off) 1 <;> rfl

/-- The fetch is the decoder over the buffer's bytes at `eip`. -/
theorem fetch_eq_decodeFrom (s : State) :
    fetch s = decodeFrom s.mem.byteAt s.eip.toNat .decodeError .registerIndexError := by
  rw [fetch, funext (readByte_eq s), funext (readSignedByte_eq s)]
  rfl

/-- The fetch answers an instruction exactly where its encoding stands at `eip`. -/
theorem fetch_eq_ok_iff {s : State} {i : Instr} :
    fetch s = .ok i ↔ i.wf = true ∧ s.mem.holds s.eip.toNat (encode i) := by
  rw [fetch_eq_decodeFrom, Memory.holds_iff_standsAt, decodeFrom_eq_ok_iff]

/-- The ways a fetch fails: the opcode byte is outside the buffer; it is undefined; an operand byte is outside (R119). -/
theorem fetch_error_cases {s : State} {f : Fault} (h : fetch s = .error f) :
    (s.mem.size ≤ s.eip.toNat ∧ f = .outOfBounds s.eip.toNat) ∨
    (∃ op, s.mem.byteAt s.eip.toNat = .ok op ∧ decodeOpcode op = .undefined op ∧ f = .decodeError op) ∨
    (∃ a, s.eip.toNat < s.mem.size ∧ s.mem.size ≤ a ∧ s.eip.toNat + 1 ≤ a ∧ a ≤ s.eip.toNat + 4 ∧ f = .outOfBounds a) := by
  obtain ⟨e, hbyte, hr⟩ | ⟨op, hbyte, hread⟩ := decodeWith_cases h
  · cases hr
    obtain ⟨-, hsize, rfl⟩ := Memory.memRead_eq_error_iff.mp hbyte
    exact .inl ⟨by omega, by congr 1; omega⟩
  · rw [readByte_eq, Nat.add_zero] at hbyte
    have hinside := Memory.lt_of_byteAt hbyte
    have operand {n : Nat} {e : Fault} (hn : n ≤ 4) (he : s.mem.memRead (s.eip.toNat + 1) n = .error e) :
        ∃ a, s.eip.toNat < s.mem.size ∧ s.mem.size ≤ a ∧ s.eip.toNat + 1 ≤ a ∧ a ≤ s.eip.toNat + 4 ∧ e = .outOfBounds a := by
      obtain ⟨-, hsize, rfl⟩ := Memory.memRead_eq_error_iff.mp he
      exact ⟨_, hinside, by omega, by omega, by omega, rfl⟩
    obtain ⟨r, v, hi, -, -, hr⟩ | ⟨r, e, -, -, hv, hr⟩ | ⟨d, -, -, hr⟩ | ⟨e, -, hd, hr⟩ | ⟨hop, hr⟩ := hread
    · cases hr
    · cases hr
      exact .inr (.inr (operand (Nat.le_refl 4) hv))
    · cases hr
    · cases hr
      refine .inr (.inr (operand (n := 1) (by omega) ?_))
      rw [readSignedByte] at hd
      cases hb : readByte s 1 with
      | error g => rw [hb] at hd; cases hd; exact hb
      | ok b => rw [hb] at hd; cases hd
    · cases hr
      exact .inr (.inl ⟨op, hbyte, hop, rfl⟩)

/-- Outside the buffer the opcode read fails at `eip` (R113). -/
theorem fetch_of_outside {s : State} (h : s.mem.size ≤ s.eip.toNat) : fetch s = .error (.outOfBounds s.eip.toNat) := by
  have hbyte : readByte s 0 = .error (.outOfBounds s.eip.toNat) := by
    rw [readByte_eq, Nat.add_zero, Memory.byteAt_of_le h]
  simp [fetch, decodeWith, hbyte]

section
variable {s : State} {op : Byte} (hbyte : s.mem.byteAt s.eip.toNat = .ok op)
include hbyte

/-- A load-immediate opcode passes the index guard, and the fetch is its operand read. -/
theorem fetch_of_loadImm {i : Nat} (hop : decodeOpcode op = .loadImm i) :
    fetch s = (readDoubleWord s 1).map (Instr.mov ⟨i, (decodeOpcode_loadImm hop).1⟩) := by
  have hread : readByte s 0 = .ok op := by rw [readByte_eq, Nat.add_zero, hbyte]
  simp only [fetch, decodeWith, hread, hop, (decodeOpcode_loadImm hop).1, dite_true]
  cases readDoubleWord s 1 <;> rfl

/-- After the jump opcode the fetch is the read of the displacement. -/
theorem fetch_of_jmpShort (hop : decodeOpcode op = .jmpShort) : fetch s = (readSignedByte s 1).map .jmpRel8 := by
  have hread : readByte s 0 = .ok op := by rw [readByte_eq, Nat.add_zero, hbyte]
  simp only [fetch, decodeWith, hread, hop]
  cases readSignedByte s 1 <;> rfl

end

end Sys2Proof.Machine
end

section
/-! PROOFS. The invariant of the machine (10_state.md section 5): a turn of the loop keeps it, so every step and every
run does; and what the invariant says of a fault signal. -/

namespace Sys2Proof.Machine

/-- The error of a fetch fits the state it is raised in: it shows its cause (R111 to R113). -/
theorem faultFits_of_fetch_error {s : State} {f : Fault} (h : fetch s = .error f) : faultFits s f := by
  obtain ⟨hsize, rfl⟩ | ⟨op, hbyte, hop, rfl⟩ | ⟨a, -, hsize, hlo, hhi, rfl⟩ := fetch_error_cases h
  · exact ⟨hsize, Nat.le_refl _, by omega⟩
  · exact ⟨hbyte, hop⟩
  · exact ⟨hsize, by omega, hhi⟩

/-- A Faulted state fits its phase as soon as its error fits, because taking an error keeps `eip` and memory (R117). -/
theorem phaseFits_raise {s : State} {f : Fault} (h : faultFits s f) : phaseFits (s.raise f) := by
  cases f <;> exact h

theorem phaseFits_of_running {s : State} (h : s.phase = .running) : phaseFits s := by
  rw [phaseFits, h]
  trivial

/-- The halt test of a Running state leaves a phase that fits: Halted with `eip = 0`, or Running (R75). -/
theorem phaseFits_haltTest {s : State} (hp : s.phase = .running) : phaseFits (haltTest s) := by
  by_cases h : s.eip = 0#32
  · have hphase : (haltTest s).phase = .halted := by rw [haltTest_phase, if_pos h]
    rw [phaseFits, hphase]
    exact (haltTest_eip s).trans h
  · exact phaseFits_of_running (by rw [haltTest_phase, if_neg h, hp])

/-- A turn of the loop keeps the invariant: memory is not written, and each kind of turn leaves a phase that fits. -/
theorem advance_inv {s : State} (h : s.Inv) : (advance s).Inv := by
  obtain ⟨hmem, hphase⟩ := h
  refine ⟨by rwa [advance_mem], ?_⟩
  obtain hp | ⟨hp, ⟨f, hf⟩ | ⟨r, v, hf⟩ | ⟨d, hf⟩⟩ := turn_cases s
  · rwa [advance_of_ended hp]
  · rw [advance_of_fetch_error hp hf]
    exact phaseFits_raise (faultFits_of_fetch_error hf)
  · rw [advance_of_fetch_mov hp hf]
    exact phaseFits_haltTest hp
  · rw [advance_of_fetch_jmp hp hf]
    exact phaseFits_haltTest hp

/-- Settles O31: a completed step is a turn of the loop. -/
theorem stepKeepsTheInvariant : Obligations.StepKeepsTheInvariant := by
  unfold Obligations.StepKeepsTheInvariant
  intro s t hs ht
  rw [← advance_of_next ht]
  exact advance_inv hs

/-- Settles O32: what every turn keeps, a run keeps. -/
theorem runKeepsTheInvariant : Obligations.RunKeepsTheInvariant :=
  runFor_induction fun _ => advance_inv

/-- Settles O30: an image's buffer is canonical, and construction is Running. -/
theorem constructionMeetsTheInvariant : Obligations.ConstructionMeetsTheInvariant :=
  fun initEip initSp image himage => ⟨Memory.ofImage_wf himage, phaseFits_of_running (State.construct_phase initEip initSp image)⟩

/-- Settles O29: the fixed reset is a construction, from the empty image. -/
theorem resetMeetsTheInvariant : Obligations.ResetMeetsTheInvariant :=
  constructionMeetsTheInvariant _ _ _ (Nat.zero_le _)

/-! ### The fault signal -/

/-- There is a signal in phase Faulted only, and it is that phase's error (R116). -/
theorem State.faultSignal_eq_some_iff {s : State} {f : Fault} : s.faultSignal = some f ↔ s.phase = .faulted f := by
  rw [State.faultSignal]
  cases s.phase <;> simp

/-- The cause code of a state with an error is the error's (R114). -/
theorem State.causeCode_of_faultSignal {s : State} {f : Fault} (h : s.faultSignal = some f) : s.causeCode = f.code := by
  rw [State.causeCode, h]

/-- No error has code 0, which is the code of no error (R114). -/
theorem State.causeCode_eq_zero_iff {s : State} : s.causeCode = 0 ↔ s.faultSignal = none := by
  cases h : s.faultSignal with
  | none => simp [State.causeCode, h]
  | some f =>
    rw [State.causeCode_of_faultSignal h]
    cases f <;> exact iff_of_false nofun nofun

/-- In a state that meets the invariant the signalled error fits. -/
theorem State.Inv.faultFits {s : State} {f : Fault} (h : s.Inv) (hf : s.faultSignal = some f) : faultFits s f := by
  obtain ⟨-, hphase⟩ := h
  rwa [phaseFits, State.faultSignal_eq_some_iff.mp hf] at hphase

/-- Settles O37: the error of a Faulted state fits, which gives each kind its cause and its recorded value. -/
theorem faultSignalCarriesItsCause : Obligations.FaultSignalCarriesItsCause := by
  unfold Obligations.FaultSignalCarriesItsCause
  refine fun s hs => ⟨State.causeCode_eq_zero_iff, fun f hf => ?_⟩
  have hcode := State.causeCode_of_faultSignal hf
  have hfits := hs.faultFits hf
  cases f with
  | decodeError op =>
    obtain ⟨hbyte, hop⟩ := hfits
    exact .inl ⟨op, rfl, hcode, rfl, hbyte, hop⟩
  | registerIndexError i => exact hfits.elim
  | outOfBounds a =>
    obtain ⟨hsize, -, hhi⟩ := hfits
    have heip := s.eip.isLt
    exact .inr ⟨a, rfl, hcode, rfl, hsize, by omega⟩

end Sys2Proof.Machine
end

section
/-! PROOFS. What a step answers (40_fetch_dispatch.md sections 3 and 4, 60_exceptions.md sections 2 and 3): completion,
the fatal errors in their order, and the refusal after the end of a run. -/

namespace Sys2Proof.Machine

/-- Every instruction completes in every state. -/
theorem exec_completes (i : Instr) (s : State) : ∃ t, exec i s = .next t := by
  obtain ⟨r, v, rfl⟩ | ⟨d, rfl⟩ := instr_cases i
  · exact ⟨_, exec_mov r v s⟩
  · exact ⟨_, exec_jmp d s⟩

/-- A fetched instruction is run, and the step is the halt test after it (R75). -/
theorem step_of_fetch_ok {s : State} {i : Instr} (hp : s.phase = .running) (hf : fetch s = .ok i) :
    ∃ t, exec i s = .next t ∧ step s = .next (haltTest t) := by
  obtain ⟨t, ht⟩ := exec_completes i s
  exact ⟨t, ht, by simp [step_of_running hp, hf, ht, afterHandler]⟩

/-- A step faults with the error of its fetch, and with no other. -/
theorem step_eq_fault_iff {s : State} {f : Fault} : step s = .fault f ↔ s.phase = .running ∧ fetch s = .error f := by
  refine ⟨fun h => ?_, fun ⟨hp, hf⟩ => step_of_fetch_error hp hf⟩
  obtain ⟨-, r, v, -, ho⟩ | ⟨-, d, -, ho⟩ | ⟨hp, g, hg, ho⟩ | ⟨-, ho⟩ := step_cases h
  · cases ho
  · cases ho
  · cases ho; exact ⟨hp, hg⟩
  · cases ho

/-- Where the bytes at `eip` begin with an instruction, the fetch answers it. -/
theorem fetch_of_decode {s : State} {bs rest : List Byte} {i : Instr} (hbs : s.mem.holds s.eip.toNat bs)
    (hi : decode bs = .ok (i, rest)) : fetch s = .ok i := by
  obtain ⟨hwf, rfl⟩ := decode_eq_ok_iff.mp hi
  refine fetch_eq_ok_iff.mpr ⟨hwf, fun k b hk => hbs k b ?_⟩
  rw [List.getElem?_append_left (List.getElem?_eq_some_iff.mp hk).1, hk]

/-- Settles O19: the fetch is the decoder over the bytes at `eip`. -/
theorem stepRunsTheDecodedInstruction : Obligations.StepRunsTheDecodedInstruction :=
  fun _ _ _ _ hp hbs hi => step_of_fetch_ok hp (fetch_of_decode hbs hi)

/-- Settles O22: each read, in the order of R78, is inside the buffer or is the step's fault. -/
theorem stepErrorsComeInOrder : Obligations.StepErrorsComeInOrder := by
  unfold Obligations.StepErrorsComeInOrder
  refine fun s hp => ⟨fun hout => step_of_fetch_error hp (fetch_of_outside hout), fun op hbyte => ?_⟩
  have completes {i : Instr} (hf : fetch s = .ok i) : ∃ t, step s = .next t :=
    (step_of_fetch_ok hp hf).elim fun t ht => ⟨haltTest t, ht.2⟩
  refine ⟨fun hop => ?_, fun r hop hsize => ?_, fun r hop hsize => ?_, fun hop hsize => ?_, fun hop hsize => ?_⟩
  · exact step_of_fetch_error hp (fetch_of_undefined hbyte hop)
  · refine step_of_fetch_error hp ?_
    rw [fetch_of_loadImm hbyte hop, readDoubleWord, Memory.memRead_of_outside (by omega) (by omega)]
    rfl
  · cases hv : readDoubleWord s 1 with
    | error f =>
      obtain ⟨-, hout, -⟩ := Memory.memRead_eq_error_iff.mp hv
      omega
    | ok v => exact completes (by rw [fetch_of_loadImm hbyte hop, hv]; rfl)
  · have hinside := Memory.lt_of_byteAt hbyte
    refine step_of_fetch_error hp ?_
    rw [fetch_of_jmpShort hbyte hop, readSignedByte, readByte_eq, Memory.byteAt_of_le (by omega)]
    rfl
  · refine completes (i := .jmpRel8 (signExtendByte (cellAt s.mem.cells (s.eip.toNat + 1)))) ?_
    rw [fetch_of_jmpShort hbyte hop, readSignedByte, readByte_eq, Memory.byteAt_of_lt (by omega)]
    rfl

/-- Settles O23: a register-index error fits no state. -/
theorem registerIndexErrorIsUnreachable : Obligations.RegisterIndexErrorIsUnreachable :=
  fun _ _ h => faultFits_of_fetch_error (step_eq_fault_iff.mp h).2

/-- Settles O24: the error is taken by `raise`, which writes the phase only; its address is one of the fetch's. -/
theorem fatalErrorIsPrecise : Obligations.FatalErrorIsPrecise := by
  unfold Obligations.FatalErrorIsPrecise
  intro s f h
  rw [advance_of_fault h]
  refine ⟨fun _ => rfl, rfl, rfl, rfl, fun a ha => ?_⟩
  subst ha
  obtain ⟨hsize, hf⟩ | ⟨op, -, -, hf⟩ | ⟨x, hsize, -, hlo, hhi, hf⟩ := fetch_error_cases (step_eq_fault_iff.mp h).2
  · cases hf; exact .inl ⟨hsize, rfl⟩
  · cases hf
  · cases hf; exact .inr ⟨hsize, hlo, hhi⟩

/-- A register is kept by a completed step unless the step is the load-immediate that names it. -/
theorem step_reg_frame {s t : State} (h : step s = .next t) : ∃ r : Fin 8, ∀ j, j ≠ r → t.reg j = s.reg j := by
  obtain ⟨-, r, v, -, ht⟩ | ⟨-, d, -, ht⟩ | ⟨-, f, -, ht⟩ | ⟨-, ht⟩ := step_cases h
  · cases ht
    exact ⟨r, fun j hj => by rw [haltTest_reg, State.setEip_reg, State.reg_setReg_other s r j v hj]⟩
  · cases ht
    exact ⟨0, fun j _ => by rw [haltTest_reg, State.setEip_reg]⟩
  · cases ht
  · cases ht

/-- Settles O26: a completed step is one instruction's meaning, and a fault is taken by `raise`. -/
theorem stepChangesAtMostOneRegister : Obligations.StepChangesAtMostOneRegister := by
  unfold Obligations.StepChangesAtMostOneRegister
  refine ⟨fun s t h => ?_, fun s f h => ?_⟩
  · obtain ⟨r, hr⟩ := step_reg_frame h
    exact ⟨r, hr, step_mem h⟩
  · rw [advance_of_fault h, State.raise, State.setPhase]

/-- Settles O28: a Running state completes or faults, an ended one is refused. -/
theorem onlyEndedRunsAreRefused : Obligations.OnlyEndedRunsAreRefused := by
  unfold Obligations.OnlyEndedRunsAreRefused
  refine fun s r => ⟨fun h => ?_, fun ⟨hp, hr⟩ => hr ▸ step_of_ended hp⟩
  obtain ⟨-, _, v, -, ho⟩ | ⟨-, d, -, ho⟩ | ⟨-, f, -, ho⟩ | ⟨hp, ho⟩ := step_cases h
  · cases ho
  · cases ho
  · cases ho
  · cases ho; exact ⟨hp, rfl⟩

end Sys2Proof.Machine
end

section
/-! PROOFS. The buffer (20_memory.md section 1): its canonical form writes it in one way, every such form is an image's,
and construction puts the image there. -/

namespace Sys2Proof.Machine

/-! ### The canonical form -/

/-- From its upper bound on, a canonical list holds nothing. -/
theorem cellAt_of_le {hi : Nat} : ∀ {lo : Nat} {cs : List Host.Cell} {a : Nat}, cellsWf lo hi cs = true → hi ≤ a →
    cellAt cs a = Memory.unlisted
  | _, [], _, _, _ => rfl
  | _, (k, b) :: cs, a, h, ha => by
    simp only [cellsWf, Bool.and_eq_true, decide_eq_true_eq] at h
    obtain ⟨⟨⟨-, hk⟩, -⟩, htail⟩ := h
    rw [cellAt, if_neg (by omega)]
    exact cellAt_of_le htail ha

/-- At the address of its first cell a list holds that cell's byte. -/
theorem cellAt_cons_self (k : Nat) (b : Byte) (cs : List Host.Cell) : cellAt ((k, b) :: cs) k = b := by
  rw [cellAt, if_pos rfl]

/-- Canonical lists that hold the same everywhere are equal: their first cells are at the lowest address that holds a
byte other than the unlisted one, and so on down the lists. -/
theorem cells_ext {hi : Nat} : ∀ {lo lo' : Nat} {cs cs' : List Host.Cell}, cellsWf lo hi cs = true →
    cellsWf lo' hi cs' = true → (∀ a, cellAt cs a = cellAt cs' a) → cs = cs'
  | _, _, [], [], _, _, _ => rfl
  | _, _, [], (k, b) :: cs, _, h', heq => by
    simp only [cellsWf, Bool.and_eq_true, decide_eq_true_eq] at h'
    exact absurd ((heq k).trans (cellAt_cons_self k b cs)).symm h'.1.2
  | _, _, (k, b) :: cs, [], h, _, heq => by
    simp only [cellsWf, Bool.and_eq_true, decide_eq_true_eq] at h
    exact absurd ((cellAt_cons_self k b cs).symm.trans (heq k)) h.1.2
  | _, _, (k, b) :: cs, (k', b') :: cs', h, h', heq => by
    have hk := heq k
    have hk' := heq k'
    rw [cellAt_cons_self] at hk hk'
    simp only [cellsWf, Bool.and_eq_true, decide_eq_true_eq] at h h'
    obtain ⟨⟨-, hb⟩, htail⟩ := h
    obtain ⟨⟨-, hb'⟩, htail'⟩ := h'
    obtain hlt | rfl | hgt := Nat.lt_trichotomy k k'
    · rw [cellAt, if_neg (by omega), cellAt_of_lt htail' (by omega)] at hk
      exact absurd hk hb
    · rw [cellAt_cons_self] at hk
      have hcs : cs = cs' := cells_ext htail htail' fun a => by
        by_cases ha : a = k
        · subst ha
          rw [cellAt_of_lt htail (Nat.lt_succ_self a), cellAt_of_lt htail' (Nat.lt_succ_self a)]
        · have htails := heq a
          rwa [cellAt, cellAt, if_neg (Ne.symm ha), if_neg (Ne.symm ha)] at htails
      rw [hk, hcs]
    · rw [cellAt, if_neg (by omega), cellAt_of_lt htail (by omega)] at hk'
      exact absurd hk'.symm hb'

/-- Settles O10: below the size `get` shows the cells, and from there on neither memory has any. -/
theorem equalBuffersAreEqualData : Obligations.EqualBuffersAreEqualData := by
  unfold Obligations.EqualBuffersAreEqualData
  rintro ⟨size, cells⟩ ⟨size', cells'⟩ h h' hsize hget
  cases hsize
  simp only [Memory.wf, Bool.and_eq_true] at h h'
  obtain ⟨-, hcells⟩ := h
  obtain ⟨-, hcells'⟩ := h'
  have heq : ∀ a, cellAt cells a = cellAt cells' a := fun a => by
    by_cases ha : a < size
    · have hbyte := hget a
      rwa [Memory.get, Memory.get, if_pos ha, if_pos ha, Option.some_inj] at hbyte
    · rw [cellAt_of_le hcells (by omega), cellAt_of_le hcells' (by omega)]
  rw [cells_ext hcells hcells' heq]

/-- The bytes of a buffer, from address 0 to its end: the image it is the buffer of. -/
def Memory.image (m : Memory) : List Byte := (List.range m.size).map (cellAt m.cells)

theorem Memory.length_image (m : Memory) : m.image.length = m.size := by
  rw [Memory.image, List.length_map, List.length_range]

/-- The image has at each address what the buffer has. -/
theorem Memory.getElem?_image (m : Memory) (a : Nat) : m.image[a]? = m.get a := by
  rw [Memory.image, List.getElem?_map, Memory.get]
  split
  · next ha => rw [List.getElem?_range ha]; rfl
  · next ha => rw [List.getElem?_eq_none (by rw [List.length_range]; omega)]; rfl

/-- Settles O11: the buffer of the image read off a canonical memory holds the same, so it is that memory. -/
theorem everyBufferIsAnImage : Obligations.EveryBufferIsAnImage := by
  unfold Obligations.EveryBufferIsAnImage
  refine fun m hm => ⟨m.image, m.length_image, ?_⟩
  have hsize : m.image.length ≤ Config.maxMemSize := by
    rw [Memory.wf, Bool.and_eq_true, decide_eq_true_eq] at hm
    rw [Memory.length_image]
    exact hm.1
  exact equalBuffersAreEqualData _ m (Memory.ofImage_wf hsize) hm m.length_image
    fun a => (Memory.get_ofImage m.image a).trans (m.getElem?_image a)

/-! ### Construction -/

/-- A byte of the image is read from its buffer. -/
theorem Memory.byteAt_ofImage_of_some {image : List Byte} {a : Nat} {b : Byte} (h : image[a]? = some b) :
    (Memory.ofImage image).byteAt a = .ok b := by
  rw [Memory.byteAt, Memory.get_ofImage, h]

/-- Past the image there is no buffer (R31, D1). -/
theorem Memory.byteAt_ofImage_of_none {image : List Byte} {a : Nat} (h : image[a]? = none) :
    (Memory.ofImage image).byteAt a = .error (.outOfBounds a) := by
  rw [Memory.byteAt, Memory.get_ofImage, h]

/-- Settles O12: the fields of `construct`, and the image read back from its buffer. -/
theorem constructionIsTheResetTable : Obligations.ConstructionIsTheResetTable := by
  unfold Obligations.ConstructionIsTheResetTable
  refine fun initEip initSp image => ⟨fun i => ?_, rfl, rfl, rfl, fun a b hb => ?_, fun a ha => ?_⟩
  · split
    · next hi => subst hi; exact State.construct_reg_four initEip initSp image
    · next hi => exact State.construct_reg_other initEip initSp image hi
  · exact Memory.byteAt_ofImage_of_some hb
  · exact Memory.byteAt_ofImage_of_none (List.getElem?_eq_none ha)

/-- Settles O33: no run writes memory, so a read is of the image's buffer still. -/
theorem everyReadReturnsTheImage : Obligations.EveryReadReturnsTheImage := by
  unfold Obligations.EveryReadReturnsTheImage
  intro initEip initSp image n a
  rw [runFor_mem, State.construct_mem]
  cases h : image[a]? with
  | none => exact Memory.byteAt_ofImage_of_none h
  | some b => exact Memory.byteAt_ofImage_of_some h

/-- Settles O13: the opcode is read at `INIT_EIP`, inside the image or not. -/
theorem entryPointIsInitEip : Obligations.EntryPointIsInitEip := by
  unfold Obligations.EntryPointIsInitEip
  refine fun initEip initSp image => ⟨rfl, fun op hop => ?_, fun hout => ?_⟩
  · rw [readByte_eq]
    exact Memory.byteAt_ofImage_of_some hop
  · exact step_of_fetch_error (State.construct_phase initEip initSp image) (fetch_of_outside hout)

end Sys2Proof.Machine
end

section
/-! PROOFS. How runs go on and end (10_state.md R23, 40_fetch_dispatch.md sections 1 and 4): the ended phases are
absorbing, a run has one fate, the host's runner makes the same run. -/

namespace Sys2Proof.Machine

/-- A run stays where a turn of the loop changes nothing. -/
theorem runFor_of_advance_eq {s : State} (h : advance s = s) (n : Nat) : runFor n s = s :=
  runFor_induction (P := fun t => t = s) (fun t ht => by rw [ht, h]) n s rfl

/-- An ended run stays as it is (R23). -/
theorem runFor_of_ended {s : State} (h : s.phase ≠ .running) (n : Nat) : runFor n s = s :=
  runFor_of_advance_eq (advance_of_ended h) n

/-- After the end every later point of a run is the same state. -/
theorem runFor_eq_of_le {s : State} {m n : Nat} (h : (runFor m s).phase ≠ .running) (hmn : m ≤ n) :
    runFor n s = runFor m s := by
  rw [← Nat.add_sub_of_le hmn, runFor_add, runFor_of_ended h]

/-- A run ends in one state only. -/
theorem runFor_eq_of_ended {s : State} {m n : Nat} (hm : (runFor m s).phase ≠ .running)
    (hn : (runFor n s).phase ≠ .running) : runFor m s = runFor n s := by
  obtain hmn | hnm := Nat.le_total m n
  · exact (runFor_eq_of_le hm hmn).symm
  · exact runFor_eq_of_le hn hnm

/-- Settles O38: no step is defined after the end, and further turns change nothing. -/
theorem endedRunsStayEnded : Obligations.EndedRunsStayEnded :=
  fun s m n h => ⟨step_of_ended h, (runFor_add m n s).trans (runFor_of_ended h n)⟩

/-- Settles O39: a run that is not Running for ever has an end, and the end is one state, which has one phase. -/
theorem runHasExactlyOneFate : Obligations.RunHasExactlyOneFate := by
  unfold Obligations.RunHasExactlyOneFate
  refine fun s => ⟨?_, ?_, ?_, ?_⟩
  · by_cases hforever : RunsForever s
    · exact .inr (.inr hforever)
    · obtain ⟨n, hn⟩ := not_forall.mp hforever
      cases hp : (runFor n s).phase with
      | running => exact absurd hp hn
      | halted => exact .inl ⟨n, hp⟩
      | faulted f => exact .inr (.inl ⟨n, f, hp⟩)
  · rintro ⟨⟨m, hm⟩, n, f, hn⟩
    have hsame := runFor_eq_of_ended (by rw [hm]; exact nofun) (by rw [hn]; exact nofun : (runFor n s).phase ≠ .running)
    rw [hsame, hn] at hm
    cases hm
  · rintro ⟨⟨m, hm⟩, hforever⟩
    cases hm.symm.trans (hforever m)
  · rintro ⟨⟨n, f, hn⟩, hforever⟩
    cases hn.symm.trans (hforever n)

/-! ### The host's runner -/

/-- The state the loop has reached agrees with what the host's runner answers. -/
def AgreesWith (t : State) : Host.Outcome State Fault Refusal → Prop
  | .next u => t = u
  | .fault f => t.phase = .faulted f
  | .refused r => r = .runEnded ∧ t.phase ≠ .running

section
variable {M : Host.Core} {k : Nat} {s : M.State}

theorem core_run_succ_of_next {t : M.State} (h : M.step s = .next t) : M.run (k + 1) s = M.run k t := by
  rw [Host.Core.run, h]

theorem core_run_succ_of_fault {f : M.Fault} (h : M.step s = .fault f) : M.run (k + 1) s = .fault f := by
  rw [Host.Core.run, h]

theorem core_run_succ_of_refused {r : M.Refusal} (h : M.step s = .refused r) : M.run (k + 1) s = .refused r := by
  rw [Host.Core.run, h]

end

/-- After as many turns as the host makes steps the loop agrees with the host: they make the same step, or the run has
ended and the loop stays. -/
theorem agreesWith_of_core_run {k : Nat} {s : State} {o : Host.Outcome State Fault Refusal}
    (h : Sys2Proof.core.run k s = o) : AgreesWith (runFor k s) o := by
  induction k generalizing s with
  | zero => cases h; rfl
  | succ k ih =>
    rw [runFor]
    cases hstep : step s with
    | next t =>
      rw [advance_of_next hstep]
      exact ih ((core_run_succ_of_next (M := Sys2Proof.core) hstep).symm.trans h)
    | fault f =>
      cases (core_run_succ_of_fault (M := Sys2Proof.core) hstep).symm.trans h
      rw [advance_of_fault hstep, runFor_of_ended (by rw [State.raise_phase]; exact nofun)]
      exact State.raise_phase s f
    | refused r =>
      cases (core_run_succ_of_refused (M := Sys2Proof.core) hstep).symm.trans h
      obtain ⟨hp, hr⟩ := (onlyEndedRunsAreRefused s r).mp hstep
      rw [advance_of_ended hp, runFor_of_ended hp]
      exact ⟨hr, hp⟩

/-- Settles O40: the agreement, read for each of the three outcomes. -/
theorem hostRunnerAgreesWithTheLoop : Obligations.HostRunnerAgreesWithTheLoop :=
  fun _ _ => ⟨fun _ h => agreesWith_of_core_run h, fun _ h => agreesWith_of_core_run h, fun _ h => agreesWith_of_core_run h⟩

end Sys2Proof.Machine
end

section
/-! PROOFS. The two families of instructions (41_load_immediate.md, 42_relative_jump.md): results and frames in every
state, the arithmetic of the jump's target, and its reach. -/

namespace Sys2Proof.Machine

/-! ### Writes of the instruction pointer -/

/-- `eip` is written with the residue of the mathematical sum (R17). -/
theorem State.toNat_eip_setEip (s : State) (t : Int) : ((s.setEip t).eip.toNat : Int) = t % 2 ^ 32 := by
  rw [State.setEip_eip, BitVec.toNat_ofInt]
  omega

/-- Writing `eip` with the value it has changes nothing. -/
theorem State.setEip_self (s : State) : s.setEip s.eip.toNat = s := by
  rw [State.setEip, BitVec.ofInt_natCast, BitVec.ofNat_toNat, BitVec.setWidth_eq]

/-- The address after a load-immediate as a 32-bit sum: it wraps at the top (R85, D3). -/
theorem ofInt_toNat_add_five (p : Word) : BitVec.ofInt 32 ((p.toNat : Int) + 5) = p + 5#32 := by
  rw [BitVec.ofInt_add, BitVec.ofInt_natCast, BitVec.ofNat_toNat, BitVec.setWidth_eq]
  rfl

/-- The target of a jump as a 32-bit sum. -/
theorem ofInt_jumpTarget (p : Word) (d : Int) : BitVec.ofInt 32 (jumpTarget p d) = p + 2#32 + BitVec.ofInt 32 d := by
  rw [jumpTarget, BitVec.ofInt_add, BitVec.ofInt_add, BitVec.ofInt_natCast, BitVec.ofNat_toNat, BitVec.setWidth_eq]
  rfl

/-! ### Load-immediate -/

/-- Each of the eight constructors is the load-immediate of its register. -/
theorem eq_mov_of_mem_table {v : Word} {r : Fin 8} {i : Instr}
    (h : (r, i) ∈ [((0 : Fin 8), Instr.movR0 v), (1, .movR1 v), (2, .movR2 v), (3, .movR3 v), (4, .movR4 v), (5, .movR5 v),
      (6, .movR6 v), (7, .movR7 v)]) : i = Instr.mov r v := by
  simp only [List.mem_cons, List.not_mem_nil, or_false, Prod.mk.injEq] at h
  obtain ⟨rfl, rfl⟩ | ⟨rfl, rfl⟩ | ⟨rfl, rfl⟩ | ⟨rfl, rfl⟩ | ⟨rfl, rfl⟩ | ⟨rfl, rfl⟩ | ⟨rfl, rfl⟩ | ⟨rfl, rfl⟩ := h <;> rfl

/-- Settles O15: the general rule R85 writes its register and then `eip`. -/
theorem movLoadsItsRegisterAndNothingElse : Obligations.MovLoadsItsRegisterAndNothingElse := by
  unfold Obligations.MovLoadsItsRegisterAndNothingElse
  intro s v r i hi
  rw [eq_mov_of_mem_table hi]
  refine ⟨_, exec_mov r v s, State.reg_setReg_same s r v, fun j hj => State.reg_setReg_other s r j v hj, ?_, fun _ => rfl, rfl⟩
  have heip := State.toNat_eip_setEip (s.setReg r v) ((s.eip.toNat : Int) + 5)
  omega

/-! ### The relative jump -/

/-- Settles O16: the jump writes `eip` only. -/
theorem jmpMovesOnlyTheInstructionPointer : Obligations.JmpMovesOnlyTheInstructionPointer :=
  fun s d _ _ => ⟨_, exec_jmp d s, State.toNat_eip_setEip s _, fun _ => rfl, fun _ => rfl, rfl⟩

/-- Truncating a sign-extended byte leaves it sign-extended to the smaller width. -/
theorem setWidth_signExtend_byte (b : Byte) : (b.signExtend 64).setWidth 32 = b.signExtend 32 := by
  refine BitVec.eq_of_getLsbD_eq fun k hk => ?_
  have hk64 : k < 64 := by omega
  simp only [BitVec.getLsbD_setWidth, BitVec.getLsbD_signExtend, hk, hk64, decide_true, Bool.true_and]

/-- Formulation (a) of R101: the sum in 64 bits, truncated, is the sum in 32 bits. -/
theorem setWidth_signed_sum (p : Word) (b : Byte) :
    (p.setWidth 64 + 2#64 + b.signExtend 64).setWidth 32 = p + 2#32 + b.signExtend 32 := by
  rw [BitVec.setWidth_add _ _ (by omega), BitVec.setWidth_add _ _ (by omega), BitVec.setWidth_setWidth_of_le _ (by omega),
    BitVec.setWidth_eq, setWidth_signExtend_byte]
  rfl

/-- Formulation (b) of R101: a displacement byte from 0x80 on is extended with ones. -/
theorem signExtend_byte (b : Byte) :
    b.signExtend 32 = if b.toNat < 0x80 then b.setWidth 32 else 0xFFFFFF00#32 + b.setWidth 32 := by
  have hb := b.isLt
  apply BitVec.eq_of_toNat_eq
  simp only [BitVec.toNat_signExtend, BitVec.msb_eq_decide, decide_eq_true_eq]
  split
  · rw [if_neg (by omega), BitVec.toNat_add]
    simp only [BitVec.toNat_setWidth, BitVec.toNat_ofNat]
    omega
  · rw [if_pos (by omega), Nat.add_zero]

/-- Settles O17: the exact sum is the law itself; (a) and (b) are 32-bit sums, (c) is the two cases of the sign. -/
theorem jumpTargetFormulationsAgree : Obligations.JumpTargetFormulationsAgree := by
  unfold Obligations.JumpTargetFormulationsAgree
  intro s b
  rw [signExtendByte_eq_toInt]
  have hexact : ((s.setEip (jumpTarget s.eip b.toInt)).eip.toNat : Int) = ((s.eip.toNat : Int) + 2 + b.toInt) % 2 ^ 32 :=
    State.toNat_eip_setEip s _
  have hword : (s.setEip (jumpTarget s.eip b.toInt)).eip = s.eip + 2#32 + b.signExtend 32 := ofInt_jumpTarget s.eip b.toInt
  refine ⟨_, exec_jmp b.toInt s, hexact, ?_, ?_, ?_⟩
  · rw [hword, setWidth_signed_sum]
  · rw [hword, signExtend_byte]
  · rw [hexact, ← signExtendByte_eq_toInt, signExtendByte]
    split
    · rfl
    · rw [add_sub_assoc]

/-- Seen from `p - 126`, the target of a jump is its displacement counted from -128 (R104). -/
theorem ofInt_jumpTarget_eq_iff (p x : Word) (d : Int) :
    BitVec.ofInt 32 (jumpTarget p d) = x ↔ x - (p - 126#32) = BitVec.ofInt 32 (d + 128) := by
  have h128 : BitVec.ofInt 32 128 = 128#32 := rfl
  rw [ofInt_jumpTarget, BitVec.ofInt_add, h128]
  generalize BitVec.ofInt 32 d = w
  constructor <;> intro h <;> bv_omega

/-- Settles O18: the displacements counted from -128 are the numbers below 256. -/
theorem jumpReachIsTwoHundredFiftySixAddresses : Obligations.JumpReachIsTwoHundredFiftySixAddresses := by
  unfold Obligations.JumpReachIsTwoHundredFiftySixAddresses
  intro s x
  constructor
  · rintro ⟨d, t, hwf, ht, hx⟩
    cases ht
    obtain ⟨hlo, hhi⟩ := displacementOk_iff.mp hwf
    rw [(ofInt_jumpTarget_eq_iff s.eip x d).mp hx, BitVec.toNat_ofInt]
    omega
  · intro hreach
    refine ⟨(x - (s.eip - 126#32)).toNat - 128, _, displacementOk_iff.mpr ⟨by omega, by omega⟩, exec_jmp _ s, ?_⟩
    refine (ofInt_jumpTarget_eq_iff s.eip x _).mpr ?_
    rw [Int.sub_add_cancel, BitVec.ofInt_natCast, BitVec.ofNat_toNat, BitVec.setWidth_eq]

end Sys2Proof.Machine
end

section
/-! PROOFS. One step from the bytes at `eip` (95_test_vectors.md S4, S5): the two families, the halt test after them
(40_fetch_dispatch.md R75), the start at address 0 and the jump to itself. -/

namespace Sys2Proof.Machine

/-! ### The halt test -/

theorem haltTest_of_eip_ne_zero {s : State} (h : s.eip ≠ 0#32) : haltTest s = s := by
  simp [haltTest, haltCondition, Config.haltSentinel, h]

/-- A Running state is Halted by the halt test exactly when `eip` is 0 (R75). -/
theorem haltTest_phase_eq_halted_iff {s : State} (hp : s.phase = .running) :
    (haltTest s).phase = .halted ↔ s.eip = 0#32 := by
  rw [haltTest_phase, hp]
  by_cases h : s.eip = 0#32 <;> simp [h]

/-- Otherwise it stays Running. -/
theorem haltTest_phase_eq_running_iff {s : State} (hp : s.phase = .running) :
    (haltTest s).phase = .running ↔ s.eip ≠ 0#32 := by
  rw [haltTest_phase, hp]
  by_cases h : s.eip = 0#32 <;> simp [h]

/-- A completed step is the halt test of a Running state, the one the instruction left. -/
theorem exists_haltTest_of_step {s t : State} (h : step s = .next t) : ∃ u, u.phase = .running ∧ t = haltTest u := by
  obtain ⟨hp, r, v, -, ht⟩ | ⟨hp, d, -, ht⟩ | ⟨-, f, -, ht⟩ | ⟨-, ht⟩ := step_cases h
  · cases ht; exact ⟨(s.setReg r v).setEip _, hp, rfl⟩
  · cases ht; exact ⟨s.setEip _, hp, rfl⟩
  · cases ht
  · cases ht

/-! ### The step of each family -/

/-- The step of the five bytes of a load-immediate. -/
theorem step_of_mov_bytes {s : State} {r : Fin 8} {v : Word} (hp : s.phase = .running)
    (h : s.mem.holds s.eip.toNat (BitVec.ofNat 8 (0xB8 + r) :: immediateBytes v)) :
    step s = .next (haltTest ((s.setReg r v).setEip ((s.eip.toNat : Int) + 5))) := by
  have hf : fetch s = .ok (Instr.mov r v) := fetch_eq_ok_iff.mpr ⟨mov_wf r v, by rwa [encode_mov]⟩
  obtain ⟨t, ht, hstep⟩ := step_of_fetch_ok hp hf
  rw [exec_mov] at ht
  cases ht
  exact hstep

/-- The step of the two bytes of a jump. -/
theorem step_of_jmp_bytes {s : State} {b : Byte} (hp : s.phase = .running)
    (h : s.mem.holds s.eip.toNat [0xEB#8, b]) : step s = .next (haltTest (s.setEip (jumpTarget s.eip b.toInt))) := by
  have hwf : (Instr.jmpRel8 (signExtendByte b)).wf = true := displacementOk_iff.mpr (signExtendByte_range b)
  have hf : fetch s = .ok (.jmpRel8 (signExtendByte b)) :=
    fetch_eq_ok_iff.mpr ⟨hwf, by rwa [encode, ofInt_signExtendByte]⟩
  rw [signExtendByte_eq_toInt] at hf
  obtain ⟨t, ht, hstep⟩ := step_of_fetch_ok hp hf
  cases ht
  exact hstep

/-- Settles O20: the result and the frame of a load-immediate, and the phase of the halt test. -/
theorem stepOfLoadImmediateBytes : Obligations.StepOfLoadImmediateBytes := by
  unfold Obligations.StepOfLoadImmediateBytes
  intro s r v hp hbytes
  refine ⟨_, step_of_mov_bytes hp hbytes, ?_, fun j hj => ?_, ?_, fun a => ?_, ?_⟩
  · rw [haltTest_reg, State.setEip_reg, State.reg_setReg_same]
  · rw [haltTest_reg, State.setEip_reg, State.reg_setReg_other s r j v hj]
  · rw [haltTest_eip, State.setEip_eip, ofInt_toNat_add_five]
  · rw [haltTest_mem, State.setEip_mem, State.setReg_mem]
  · rw [haltTest_phase, State.setEip_eip, ofInt_toNat_add_five, State.setEip_phase, State.setReg_phase, hp]

/-- Settles O21: the result and the frame of a jump, and the phase of the halt test. -/
theorem stepOfJumpBytes : Obligations.StepOfJumpBytes := by
  unfold Obligations.StepOfJumpBytes
  intro s b hp hbytes
  have hword : BitVec.ofInt 32 (jumpTarget s.eip b.toInt) = s.eip + 2#32 + b.signExtend 32 :=
    ofInt_jumpTarget s.eip b.toInt
  refine ⟨_, step_of_jmp_bytes hp hbytes, ?_, fun j => ?_, fun a => ?_, ?_⟩
  · rw [haltTest_eip, State.setEip_eip, hword]
  · rw [haltTest_reg, State.setEip_reg]
  · rw [haltTest_mem, State.setEip_mem]
  · rw [haltTest_phase, State.setEip_eip, hword, State.setEip_phase, hp]

/-- A step that is the halt test of a Running state halts exactly when that state's `eip` is 0. -/
theorem step_halts_iff {s u : State} (h : step s = .next (haltTest u)) (hu : u.phase = .running) :
    (∃ t, step s = .next t ∧ t.phase = .halted) ↔ u.eip = 0#32 := by
  rw [← haltTest_phase_eq_halted_iff hu]
  constructor
  · rintro ⟨t, ht, hhalt⟩
    cases h.symm.trans ht
    exact hhalt
  · exact fun hhalt => ⟨_, h, hhalt⟩

/-- Settles O25: the halt test sees `eip` only; a jump's sum is 0 in 32 bits when it is 0 or `2^32`, because of its
bounds, and `p + 5` when `p` is five below `2^32`. -/
theorem haltedExactlyWhenEipIsZero : Obligations.HaltedExactlyWhenEipIsZero := by
  unfold Obligations.HaltedExactlyWhenEipIsZero
  refine ⟨fun s t h => ?_, fun s b hp hbytes => ?_, fun s r v hp hbytes => ?_⟩
  · obtain ⟨u, hu, rfl⟩ := exists_haltTest_of_step h
    rw [haltTest_eip]
    exact ⟨haltTest_phase_eq_halted_iff hu, haltTest_phase_eq_running_iff hu⟩
  · rw [step_halts_iff (step_of_jmp_bytes hp hbytes) hp]
    have hsum := State.toNat_eip_setEip s (jumpTarget s.eip b.toInt)
    have hlt := s.eip.isLt
    obtain ⟨hlo, hhi⟩ := signExtendByte_range b
    rw [signExtendByte_eq_toInt] at hlo hhi
    rw [jumpTarget] at hsum ⊢
    rw [← BitVec.toNat_inj, BitVec.toNat_ofNat]
    omega
  · rw [step_halts_iff (step_of_mov_bytes hp hbytes) hp, State.setEip_eip, ofInt_toNat_add_five]
    constructor <;> intro h <;> bv_omega

/-- Settles O14: a construction is Running whatever `INIT_EIP` is, and its buffer holds the image at 0. -/
theorem startAtZeroExecutes : Obligations.StartAtZeroExecutes := by
  unfold Obligations.StartAtZeroExecutes
  refine ⟨State.construct_phase, fun initSp image rest i hi => ?_, fun s n _ hp => ?_⟩
  · exact step_of_fetch_ok (State.construct_phase _ _ _) (fetch_of_decode (Memory.holds_ofImage [] image) hi)
  · exact runFor_of_ended (by rw [hp]; exact nofun) n

/-- The displacement of `EB FE` brings the jump back to its own address. -/
theorem setEip_jump_to_itself (s : State) : s.setEip (jumpTarget s.eip (0xFE#8).toInt) = s := by
  have hdisp : (0xFE#8).toInt = -2 := by decide
  rw [hdisp, jumpTarget, Int.add_neg_cancel_right, State.setEip_self]

/-- Settles O41: the step is the halt test of the state itself, which changes nothing unless `eip` is 0. -/
theorem jumpToItselfNeverEndsExceptAtZero : Obligations.JumpToItselfNeverEndsExceptAtZero := by
  unfold Obligations.JumpToItselfNeverEndsExceptAtZero
  intro s hp hbytes
  have hstep : step s = .next (haltTest s) := by rw [step_of_jmp_bytes hp hbytes, setEip_jump_to_itself]
  refine ⟨fun hne => ?_, fun hzero => ?_⟩
  · rw [haltTest_of_eip_ne_zero hne] at hstep
    exact ⟨hstep, fun n => by rw [runFor_of_advance_eq (advance_of_next hstep) n, hp]⟩
  · rw [runFor, runFor, advance_of_next hstep]
    exact (haltTest_phase_eq_halted_iff hp).mpr hzero

end Sys2Proof.Machine
end

section
/-! PROOFS. The host's placing of an instruction (log 2, log 15) and the assembler (30_encoding.md section 5): what they
put in memory is what the decoder reads. -/

namespace Sys2Proof.Machine

/-! ### Placing -/

/-- An address of the buffer stays in it when a byte is placed elsewhere, and keeps its byte. -/
theorem Memory.get_place_of_ne {m : Memory} {a x : Nat} {c : Byte} (b : Byte) (h : m.wf = true) (hax : a ≠ x)
    (hx : m.get x = some c) : (m.place a b).get x = some c := by
  have hlt : x < m.size := by
    by_contra hn
    rw [Memory.get, if_neg hn] at hx
    cases hx
  rw [Memory.get_place_other b h hax hlt, hx]

/-- Placing bytes from `a` on keeps what stands below `a`. -/
theorem Memory.get_placeAll_of_lt {m : Memory} {a x : Nat} {c : Byte} (bs : List Byte) (h : m.wf = true) (hxa : x < a)
    (hx : m.get x = some c) : (m.placeAll a bs).get x = some c := by
  induction bs generalizing m a with
  | nil => exact hx
  | cons b bs ih => exact ih (Memory.place_wf a b h) (by omega) (Memory.get_place_of_ne b h (by omega) hx)

/-- Bytes placed below `2^32` are read where they were placed. -/
theorem Memory.get_placeAll {m : Memory} {a k : Nat} {b : Byte} {bs : List Byte} (h : m.wf = true) (hk : bs[k]? = some b)
    (hlt : a + k < Config.maxMemSize) : (m.placeAll a bs).get (a + k) = some b := by
  induction bs generalizing m a k with
  | nil => cases hk
  | cons c cs ih =>
    have hwf := Memory.place_wf a c h
    cases k with
    | zero =>
      cases hk
      refine Memory.get_placeAll_of_lt cs hwf (Nat.lt_succ_self a) ?_
      exact (Memory.get_place b a h hlt).trans (if_pos rfl)
    | succ k =>
      rw [Nat.add_comm k 1, ← Nat.add_assoc] at hlt ⊢
      exact ih hwf hk hlt

/-- A table word is read as the instruction that its bytes begin with. -/
theorem decodeTableWord_eq_some {nbits w : Nat} {i : Instr} (h : decodeTableWord nbits w = some i) :
    ∃ rest, decode (wordBytes nbits w) = .ok (i, rest) := by
  rw [decodeTableWord] at h
  cases hd : decode (wordBytes nbits w) with
  | error e => rw [hd] at h; cases h
  | ok r => rw [hd] at h; cases h; exact ⟨r.2, rfl⟩

/-- Settles O42: the bytes of the instruction are below `2^32`, so all of them are placed, and the fetch finds them. -/
theorem fetchWordRunsItsInstruction : Obligations.FetchWordRunsItsInstruction := by
  unfold Obligations.FetchWordRunsItsInstruction
  intro s nbits w i hmem hi hfit
  refine ⟨Memory.placeAll_wf _ _ hmem, step_of_fetch_ok (State.withFetchWord_phase s nbits w) ?_⟩
  obtain ⟨rest, hdecode⟩ := decodeTableWord_eq_some hi
  obtain ⟨hwf, hbytes⟩ := decode_eq_ok_iff.mp hdecode
  refine fetch_eq_ok_iff.mpr ⟨hwf, fun k b hk => ?_⟩
  have hklt : k < i.length := encode_length i ▸ (List.getElem?_eq_some_iff.mp hk).1
  have hword : (wordBytes nbits w)[k]? = some b := by
    rw [hbytes, List.getElem?_append_left (encode_length i ▸ hklt), hk]
  have hbelow : s.eip.toNat + k < Config.maxMemSize := by rw [Config.maxMemSize]; omega
  rw [State.withFetchWord_mem, State.withFetchWord_eip, Memory.byteAt, Memory.get_placeAll hmem hword hbelow]

/-! ### Assembling -/

/-- What a `MOV` line assembles to, if it is accepted (R61). -/
theorem assemble_mov_eq_some_iff {p i : Nat} {n : Int} {bs : List Byte} :
    (AsmLine.mov i n).assemble p = some bs ↔
      ∃ r : Fin 8, (r : Nat) = i ∧ (-(2 ^ 31) ≤ n ∧ n < 2 ^ 32) ∧ encode (Instr.mov r (BitVec.ofInt 32 n)) = bs := by
  rw [AsmLine.assemble, AsmLine.toInstr]
  constructor
  · intro h
    split at h
    · next hi =>
      split at h
      · next hn => exact ⟨⟨i, hi⟩, rfl, hn, Option.some.inj h⟩
      · cases h
    · cases h
  · rintro ⟨r, rfl, hn, rfl⟩
    rw [dif_pos r.isLt, if_pos (by omega)]
    rfl

/-- What a `JMP @t` line assembles to, if it is accepted (R62). -/
theorem assemble_jmpTo_eq_some_iff {p t : Nat} {bs : List Byte} :
    (AsmLine.jmpTo t).assemble p = some bs ↔
      displacementOk ((t : Int) - (p + 2)) = true ∧ encode (.jmpRel8 ((t : Int) - (p + 2))) = bs := by
  rw [AsmLine.assemble, AsmLine.toInstr]
  by_cases h : displacementOk ((t : Int) - (p + 2)) = true
  · simp [h]
  · simp [h]

/-- An encoding by itself decodes with nothing left over. -/
theorem decode_encode {i : Instr} (hwf : i.wf = true) : decode (encode i) = .ok (i, []) :=
  decode_eq_ok_iff.mpr ⟨hwf, (List.append_nil _).symm⟩

/-- Settles O43: an accepted line is the encoding of a load-immediate, which decodes to it. -/
theorem movLineAssembles : Obligations.MovLineAssembles := by
  unfold Obligations.MovLineAssembles
  refine fun p i n => ⟨?_, fun bs hbs => ?_⟩
  · rw [Option.ne_none_iff_exists']
    constructor
    · rintro ⟨bs, hbs⟩
      obtain ⟨r, rfl, hn, -⟩ := assemble_mov_eq_some_iff.mp hbs
      exact ⟨r.isLt, hn⟩
    · rintro ⟨hi, hn⟩
      exact ⟨_, assemble_mov_eq_some_iff.mpr ⟨⟨i, hi⟩, rfl, hn, rfl⟩⟩
  · obtain ⟨r, hr, ⟨hlo, hhi⟩, rfl⟩ := assemble_mov_eq_some_iff.mp hbs
    refine ⟨r, _, hr, decode_encode (mov_wf r _), (encode_length _).trans (mov_length r _), ?_⟩
    rw [BitVec.toNat_ofInt]
    split <;> omega

/-- Settles O44: an accepted line is the encoding of a jump by `t - (p + 2)`, whose target from `p` is `t`. -/
theorem jumpLineGoesToItsTarget : Obligations.JumpLineGoesToItsTarget := by
  unfold Obligations.JumpLineGoesToItsTarget
  refine fun s t => ⟨?_, fun bs hbs => ?_⟩
  · rw [Option.ne_none_iff_exists', ← displacementOk_iff]
    constructor
    · rintro ⟨bs, hbs⟩
      exact (assemble_jmpTo_eq_some_iff.mp hbs).1
    · exact fun hd => ⟨_, assemble_jmpTo_eq_some_iff.mpr ⟨hd, rfl⟩⟩
  · obtain ⟨hd, rfl⟩ := assemble_jmpTo_eq_some_iff.mp hbs
    refine ⟨_, _, decode_encode hd, exec_jmp _ s, ?_⟩
    rw [State.setEip_eip, jumpTarget, add_sub_cancel, BitVec.ofInt_natCast, BitVec.ofNat_toNat, BitVec.setWidth_eq]

/-- Settles O45: the three lines are parsed to a `MOV`, a target and a displacement, and assembled. -/
theorem assemblerTextExamples : Obligations.AssemblerTextExamples := by
  unfold Obligations.AssemblerTextExamples
  decide

end Sys2Proof.Machine
end
